-- ==== Sys2Proof/Word.lean ====
section
/-! DEFINITION. The words of the save-storage block: bytes, bus addresses, relative offsets, flash addresses and
command words (spec/00_scope.md R9, R12; spec/20_memory.md R50; spec/30_encoding.md R80 to R82). -/

namespace Sys2Proof

/-- One byte: the block's data width, and its only access width (R7 `DATA_WIDTH`, R58). -/
abbrev Byte := BitVec 8

/-- A bus address (R7 `BUS_ADDR_WIDTH`, R50). -/
abbrev BusAddr := BitVec 32

/-- A relative offset, the low 24 bits of a save-window address (R7 `OFFSET_WIDTH`, R52). -/
abbrev Offset := BitVec 24

/-- A flash address, the low 16 bits of an offset (R7 `FLASH_ADDR_WIDTH`, R54). -/
abbrev FlashAddr := BitVec 16

/-- A flash command word `A16 ++ DATA` (R12, R82). -/
abbrev CommandWord := BitVec 24

end Sys2Proof
end

