-- ==== Sys2Proof/Config.lean ====
section
/-! DEFINITION. What one installation of the block fixes (spec/00_scope.md R7, spec/10_state.md R33), and the one value
the spec leaves unstated. Every other parameter of R7 is fixed by the spec and stands as a number in the definition
that uses it. -/

namespace Sys2Proof

/-- The block's configuration: the one OPEN parameter of R7. `step` takes it from the state it is given and no
operation changes it (R33). -/
structure Config where
  /-- `SAVE_TAG`, compared with address bits [31:24] (R51, decision D1). -/
  saveTag : Byte
deriving DecidableEq, Repr

/-- The configuration the spec's test vectors take, `SAVE_TAG = 0x0E` (R7, R89).
PRESUMED (general knowledge, G1): assumption 1. No statement may rest on this value. -/
def Config.testVectors : Config := { saveTag := 0x0E#8 }

/-- The chip-ID byte at `offset` (0 or 1) of a flash whose length is not in the table of R184. No reachable state has
such a length (R31) and the spec states no value, so this is a free value. DESIGN CHOICE: assumption 9. -/
opaque Config.unlistedChipId (len offset : Nat) : Byte

end Sys2Proof
end

