-- ==== Sys2Proof/Machine/Operands.lean ====
section
/-! DEFINITION. Operand assembly: every operand is a zero-extended bit field of its transaction (spec/30_encoding.md
R81, R82, R85; spec/20_memory.md R51 to R57). -/

namespace Sys2Proof.Machine

/-- `TAG`, `addr[31:24]` (R81). -/
def tagOf (addr : BusAddr) : Byte := addr.extractLsb' 24 8

/-- `OFF`, `addr[23:0]` (R52, R81). -/
def offOf (addr : BusAddr) : Offset := addr.extractLsb' 0 24

/-- `OFFHI`, `off[23:16]` (R81). -/
def hiOf (off : Offset) : BitVec 8 := off.extractLsb' 16 8

/-- `A16`, `off[15:0]`: the flash address, in every use the flash makes of an address (R54, decision D2). -/
def a16Of (off : Offset) : FlashAddr := off.extractLsb' 0 16

/-- `SEC`, `a16[15:12]`: the flash sector number (R57, R81). -/
def sectorOf (a : FlashAddr) : Nat := (a.extractLsb' 12 4).toNat

/-- The bus address with tag `tag` and relative offset `off` (R81). -/
def windowAddr (tag : Byte) (off : Offset) : BusAddr := tag ++ off

/-- The relative offset with ignored bits `hi` and flash address `a` (R81). -/
def flashOff (hi : BitVec 8) (a : FlashAddr) : Offset := hi ++ a

/-- The command word `A16 ++ DATA` of a write (R12, R82). -/
def commandWord (off : Offset) (v : Byte) : CommandWord := a16Of off ++ v

/-- `CW[23:8]` (R82). -/
def wordAddr (cw : CommandWord) : FlashAddr := cw.extractLsb' 8 16

/-- `CW[7:0]` (R82). -/
def wordData (cw : CommandWord) : Byte := cw.extractLsb' 0 8

/-- `idx`, the storage index of a data read or a program (R55, R85). -/
def storageIndex (bank : Nat) (a : FlashAddr) : Nat := bank * 65536 + a.toNat

/-- The sector base, the first byte a sector erase reaches (R57, R85). -/
def sectorBase (bank : Nat) (a : FlashAddr) : Nat := bank * 65536 + sectorOf a * 4096

/-- `NUM_BANKS(len)` (R7). -/
def numBanks (len : Nat) : Nat := len / 65536

end Sys2Proof.Machine
end

