-- ==== Sys2Proof/Syntax.lean ====
section
/-! DEFINITION. What the block is asked to do: the operations its interface takes (spec/30_encoding.md R80,
spec/40_memory_map.md R104, spec/45_host_interface.md R200 to R204), and the instructions they decode to, one
constructor for each row of spec/opcode_table.json. The two registers that qualify decoding, the read mode and the
protocol state (spec/10_state.md R27, R28), have their types here because the decoder reads them. -/

namespace Sys2Proof

/-- The read-mode register's values (R27). -/
inductive ReadMode where
  | data
  | chipId
deriving DecidableEq, Repr

/-- The context of a `WaitForCommand` state (R11). -/
inductive Context where
  | none
  | erase
deriving DecidableEq, Repr

/-- The step of a `WaitForCommand` state (R11: `s ∈ {0, 1, 2}`). -/
inductive UnlockStep where
  | zero
  | one
  | two
deriving DecidableEq, Repr

/-- The protocol-state register: exactly the eight values P0 to P7 of R28. P0 to P2 are `wfc _ none`, P3 to P5 are
`wfc _ erase`, P6 is `writeSingleByte` and P7 is `bankChange`. -/
inductive Proto where
  | wfc (step : UnlockStep) (ctx : Context)
  | writeSingleByte
  | bankChange
deriving DecidableEq, Repr

/-- P0, `WFC(0,None)`: idle. -/
abbrev Proto.idle : Proto := .wfc .zero .none

/-- The closed set of SaveTypes (00_scope.md section 5). -/
inductive SaveType where
  | none
  | sram
  | flash64K
  | flash128K
  | eeprom4K
  | eeprom64K
deriving DecidableEq, Repr

/-- The input of `set_save_device`: one of the six names, or any other input (R104, decision D9). The numbers a loader
uses are outside the block. -/
inductive SaveTypeInput where
  | named (t : SaveType)
  | unrecognized
deriving DecidableEq, Repr

/-- A snapshot record's context field. `other` stands for any value outside {None, Erase}, which R205 refuses. -/
inductive RecordContext where
  | none
  | erase
  | other
deriving DecidableEq, Repr

/-- A snapshot record's protocol field (R203): step and context, or one of the two markers. The step is a number, so
that a record with a step outside {0, 1, 2} can be presented and refused (R205). -/
inductive RecordProto where
  | wfc (step : Nat) (ctx : RecordContext)
  | writeSingleByte
  | bankChange
deriving DecidableEq, Repr

/-- The abstract snapshot record (R203, decision D12): the device kind and its buffer, and for a flash device the bank,
the read mode and the full protocol state. A record is input and may be illegal (R205). -/
inductive Record where
  | sram (buf : List Byte)
  | flash (buf : List Byte) (bank : Nat) (mode : ReadMode) (proto : RecordProto)
deriving DecidableEq, Repr

/-- One operation at the block's interface. A bus access says how wide it is, so that an access that is not one byte wide
can be presented and refused (R58, refusal X2): a read by its number of bytes, a write by its list of bytes. -/
inductive Operation where
  | read (addr : BusAddr) (width : Nat)
  | write (addr : BusAddr) (data : List Byte)
  | setSaveDevice (t : SaveTypeInput) (seed : Option (List Byte))
  | getData
  | getType
  | storageType
  | snapshot
  | restore (r : Record)
deriving DecidableEq, Repr

/-- What the caller presents next: one operation, or two that overlap in time, which the contract excludes (R68,
refusal X1). -/
inductive Request where
  | one (op : Operation)
  | overlapping (first second : Operation)
deriving DecidableEq, Repr

/-- The instructions: one constructor for each row of spec/opcode_table.json. A row whose word fixes the flash address
keeps `hi`, the ignored bits `off[23:16]` (R81 `OFFHI`); a row that fixes neither address nor data keeps both. -/
inductive Instr where
  /-- BUS_READ_SAVE (R100) -/
  | busReadSave (addr : BusAddr)
  /-- BUS_READ_UNMAPPED (R100) -/
  | busReadUnmapped (addr : BusAddr)
  /-- BUS_WRITE_SAVE (R101) -/
  | busWriteSave (addr : BusAddr) (v : Byte)
  /-- BUS_WRITE_UNMAPPED (R101) -/
  | busWriteUnmapped (addr : BusAddr) (v : Byte)
  /-- SRAM_READ (R120) -/
  | sramRead (off : Offset)
  /-- SRAM_WRITE (R121) -/
  | sramWrite (off : Offset) (v : Byte)
  /-- FLASH_READ_DATA (R181) -/
  | flashReadData (off : Offset)
  /-- FLASH_READ_CHIPID (R183) -/
  | flashReadChipId (off : Offset)
  /-- UNLOCK1, `5555/AA` (R131) -/
  | unlock1 (hi : BitVec 8)
  /-- UNLOCK2, `2AAA/55` (R132) -/
  | unlock2 (hi : BitVec 8)
  /-- ID_ENTER, `5555/90` (R133) -/
  | idEnter (hi : BitVec 8)
  /-- ID_EXIT, `5555/F0` (R134) -/
  | idExit (hi : BitVec 8)
  /-- ERASE_ARM, `5555/80` (R135) -/
  | eraseArm (hi : BitVec 8)
  /-- CHIP_ERASE, `5555/10` (R136) -/
  | chipErase (hi : BitVec 8)
  /-- SECTOR_ERASE, `ssss/30` at any address (R137) -/
  | sectorErase (off : Offset)
  /-- PROGRAM_ARM, `5555/A0` (R138) -/
  | programArm (hi : BitVec 8)
  /-- BANK_ARM, `5555/B0` (R139) -/
  | bankArm (hi : BitVec 8)
  /-- REJECT, any word matching no row of the current WFC state (R140) -/
  | reject (off : Offset) (v : Byte)
  /-- PROGRAM_DATA, every word in WSB (R160) -/
  | programData (off : Offset) (v : Byte)
  /-- BANK_SELECT, `0000/bb` in BCH (R163, R164) -/
  | bankSelect (hi : BitVec 8) (b : Byte)
  /-- BANK_SELECT_BADADDR, `aaaa/bb` with `aaaa ≠ 0` in BCH (R162) -/
  | bankSelectBadAddr (off : Offset) (v : Byte)
  /-- SET_SAVE_DEVICE (R104) -/
  | setSaveDevice (t : SaveTypeInput) (seed : Option (List Byte))
  /-- GET_DATA (R200) -/
  | getData
  /-- GET_TYPE (R201) -/
  | getType
  /-- STORAGE_TYPE (R202) -/
  | storageType
  /-- SNAPSHOT (R203) -/
  | snapshot
  /-- RESTORE (R204) -/
  | restore (r : Record)
deriving DecidableEq, Repr

end Sys2Proof
end

