-- ==== Sys2Proof/WellFormed.lean ====
section
/-! DEFINITION. Which terms of `Instr` are instructions of the opcode table: the conditions of a row's match column that
its operands alone can break (spec/30_encoding.md R83, R84). -/

namespace Sys2Proof

/-- The row's match column, as far as the operands and the configuration decide it:
the tag test of the four bus rows (R84), and `A16 != 0` for BANK_SELECT_BADADDR (R83). -/
def wellFormed (cfg : Config) : Instr → Bool
  | .busReadSave addr => Machine.tagOf addr == cfg.saveTag
  | .busReadUnmapped addr => Machine.tagOf addr != cfg.saveTag
  | .busWriteSave addr _ => Machine.tagOf addr == cfg.saveTag
  | .busWriteUnmapped addr _ => Machine.tagOf addr != cfg.saveTag
  | .bankSelectBadAddr off _ => Machine.a16Of off != 0#16
  | .sramRead _ => true
  | .sramWrite _ _ => true
  | .flashReadData _ => true
  | .flashReadChipId _ => true
  | .unlock1 _ => true
  | .unlock2 _ => true
  | .idEnter _ => true
  | .idExit _ => true
  | .eraseArm _ => true
  | .chipErase _ => true
  | .sectorErase _ => true
  | .programArm _ => true
  | .bankArm _ => true
  | .reject _ _ => true
  | .programData _ _ => true
  | .bankSelect _ _ => true
  | .setSaveDevice _ _ => true
  | .getData => true
  | .getType => true
  | .storageType => true
  | .snapshot => true
  | .restore _ => true

end Sys2Proof
end

