-- ==== Sys2Proof/Decode.lean ====
section
/-! DEFINITION. Decoding a request at the block's interface to a row of the opcode table (spec/30_encoding.md R83 to R88),
and the encoder that writes a row's request back.

Decoding has the two levels of R84. `decodeBus` selects a bus or host row by direction and tag, and rejects by name what
the interface does not take. `refine` then decodes a save-window access by the device kind and, on a flash, by the read
mode or the protocol state, which "acts as a mode that changes decoding" (R82). -/

namespace Sys2Proof

open Machine

/-- What decoding reads of the active device (R84): its kind, and a flash device's read mode and protocol state. -/
inductive DeviceView where
  | sram
  | flash (mode : ReadMode) (proto : Proto)
deriving DecidableEq, Repr

/-- The read mode, where the device is a flash. -/
def DeviceView.mode? (view : DeviceView) : Option ReadMode :=
  match view with
  | .sram => none
  | .flash m _ => some m

/-- The protocol state, where the device is a flash. -/
def DeviceView.proto? (view : DeviceView) : Option Proto :=
  match view with
  | .sram => none
  | .flash _ p => some p

/-- Why a request is no operation of the interface. -/
inductive Reject where
  /-- X1: operations that overlap in time (R68, R231). -/
  | overlap
  /-- X2: a bus access that is not one byte wide (R58, R231). -/
  | wide
deriving DecidableEq, Repr

/-- The decoder's answer. -/
inductive Decoded where
  | accepted (i : Instr)
  | rejected (r : Reject)
deriving DecidableEq, Repr

/-- The first level of R84: the four bus rows by `dir` and `TAG`, and the host rows. An access that is not exactly one byte
wide is rejected (R58), and so are overlapping operations (R68). That an overlap is rejected as one whatever its operations are
is the model's choice, because R231 and R228 do not order the refusals. DESIGN CHOICE: assumption 25. -/
def decodeBus (cfg : Config) : Request → Decoded
  | .overlapping _ _ => .rejected .overlap
  | .one (.read addr width) =>
    if width = 1 then
      if tagOf addr = cfg.saveTag then .accepted (.busReadSave addr) else .accepted (.busReadUnmapped addr)
    else .rejected .wide
  | .one (.write addr data) =>
    match data with
    | [v] => if tagOf addr = cfg.saveTag then .accepted (.busWriteSave addr v) else .accepted (.busWriteUnmapped addr v)
    | _ => .rejected .wide
  | .one (.setSaveDevice t seed) => .accepted (.setSaveDevice t seed)
  | .one .getData => .accepted .getData
  | .one .getType => .accepted .getType
  | .one .storageType => .accepted .storageType
  | .one .snapshot => .accepted .snapshot
  | .one (.restore r) => .accepted (.restore r)

/-- The decode of a flash write by protocol state: the rows of R83, each with its fixed address and data. A word of a
`WFC` state that matches no accepting row of that state is the REJECT row (R86, R87). -/
def decodeFlashWrite (p : Proto) (off : Offset) (v : Byte) : Instr :=
  match p with
  | .wfc .zero _ =>
    if a16Of off = 0x5555#16 ∧ v = 0xAA#8 then .unlock1 (hiOf off) else .reject off v
  | .wfc .one _ =>
    if a16Of off = 0x2AAA#16 ∧ v = 0x55#8 then .unlock2 (hiOf off) else .reject off v
  | .wfc .two .none =>
    if a16Of off = 0x5555#16 ∧ v = 0x90#8 then .idEnter (hiOf off)
    else if a16Of off = 0x5555#16 ∧ v = 0xF0#8 then .idExit (hiOf off)
    else if a16Of off = 0x5555#16 ∧ v = 0x80#8 then .eraseArm (hiOf off)
    else if a16Of off = 0x5555#16 ∧ v = 0xA0#8 then .programArm (hiOf off)
    else if a16Of off = 0x5555#16 ∧ v = 0xB0#8 then .bankArm (hiOf off)
    else .reject off v
  | .wfc .two .erase =>
    if a16Of off = 0x5555#16 ∧ v = 0x10#8 then .chipErase (hiOf off)
    else if v = 0x30#8 then .sectorErase off
    else .reject off v
  | .writeSingleByte => .programData off v
  | .bankChange =>
    if a16Of off = 0#16 then .bankSelect (hiOf off) v else .bankSelectBadAddr off v

/-- The device row of a save-window read (R84). -/
def decodeDeviceRead (view : DeviceView) (off : Offset) : Instr :=
  match view with
  | .sram => .sramRead off
  | .flash .data _ => .flashReadData off
  | .flash .chipId _ => .flashReadChipId off

/-- The device row of a save-window write (R84). -/
def decodeDeviceWrite (view : DeviceView) (off : Offset) (v : Byte) : Instr :=
  match view with
  | .sram => .sramWrite off v
  | .flash _ p => decodeFlashWrite p off v

/-- The second level of R84: a save-window access becomes its device row; every other row stands as it is. -/
def refine (view : DeviceView) (i : Instr) : Instr :=
  match i with
  | .busReadSave addr => decodeDeviceRead view (offOf addr)
  | .busWriteSave addr v => decodeDeviceWrite view (offOf addr) v
  | .busReadUnmapped _ | .busWriteUnmapped _ _ | .sramRead _ | .sramWrite _ _ | .flashReadData _
  | .flashReadChipId _ | .unlock1 _ | .unlock2 _ | .idEnter _ | .idExit _ | .eraseArm _ | .chipErase _
  | .sectorErase _ | .programArm _ | .bankArm _ | .reject _ _ | .programData _ _ | .bankSelect _ _
  | .bankSelectBadAddr _ _ | .setSaveDevice _ _ | .getData | .getType | .storageType | .snapshot
  | .restore _ => i

/-- The decoder: both levels. It is total, and rejects by name. -/
def decode (cfg : Config) (view : DeviceView) (r : Request) : Decoded :=
  match decodeBus cfg r with
  | .accepted i => .accepted (refine view i)
  | .rejected x => .rejected x

/-- The states column of the opcode table: in which device states a row applies (R83, R84). REJECT applies where no other
row of its state does. -/
def rowApplies (view : DeviceView) (i : Instr) : Bool :=
  match i with
  | .sramRead _ => view == .sram
  | .sramWrite _ _ => view == .sram
  | .flashReadData _ => view.mode? == some .data
  | .flashReadChipId _ => view.mode? == some .chipId
  | .unlock1 _ => view.proto? == some (.wfc .zero .none) || view.proto? == some (.wfc .zero .erase)
  | .unlock2 _ => view.proto? == some (.wfc .one .none) || view.proto? == some (.wfc .one .erase)
  | .idEnter _ => view.proto? == some (.wfc .two .none)
  | .idExit _ => view.proto? == some (.wfc .two .none)
  | .eraseArm _ => view.proto? == some (.wfc .two .none)
  | .chipErase _ => view.proto? == some (.wfc .two .erase)
  | .sectorErase _ => view.proto? == some (.wfc .two .erase)
  | .programArm _ => view.proto? == some (.wfc .two .none)
  | .bankArm _ => view.proto? == some (.wfc .two .none)
  | .reject off v =>
    match view.proto? with
    | some p => decodeFlashWrite p off v == .reject off v
    | none => false
  | .programData _ _ => view.proto? == some .writeSingleByte
  | .bankSelect _ _ => view.proto? == some .bankChange
  | .bankSelectBadAddr _ _ => view.proto? == some .bankChange
  | .busReadSave _ => true
  | .busReadUnmapped _ => true
  | .busWriteSave _ _ => true
  | .busWriteUnmapped _ _ => true
  | .setSaveDevice _ _ => true
  | .getData => true
  | .getType => true
  | .storageType => true
  | .snapshot => true
  | .restore _ => true

/-- The offset and data byte of the write that carries a flash command row (R82, R83). -/
def Instr.flashWord (i : Instr) : Option (Offset × Byte) :=
  match i with
  | .unlock1 hi => some (flashOff hi 0x5555#16, 0xAA#8)
  | .unlock2 hi => some (flashOff hi 0x2AAA#16, 0x55#8)
  | .idEnter hi => some (flashOff hi 0x5555#16, 0x90#8)
  | .idExit hi => some (flashOff hi 0x5555#16, 0xF0#8)
  | .eraseArm hi => some (flashOff hi 0x5555#16, 0x80#8)
  | .chipErase hi => some (flashOff hi 0x5555#16, 0x10#8)
  | .sectorErase off => some (off, 0x30#8)
  | .programArm hi => some (flashOff hi 0x5555#16, 0xA0#8)
  | .bankArm hi => some (flashOff hi 0x5555#16, 0xB0#8)
  | .reject off v => some (off, v)
  | .programData off v => some (off, v)
  | .bankSelect hi b => some (flashOff hi 0#16, b)
  | .bankSelectBadAddr off v => some (off, v)
  | .busReadSave _ | .busReadUnmapped _ | .busWriteSave _ _ | .busWriteUnmapped _ _ | .sramRead _
  | .sramWrite _ _ | .flashReadData _ | .flashReadChipId _ | .setSaveDevice _ _ | .getData | .getType
  | .storageType | .snapshot | .restore _ => none

/-- The bus write of one byte (format BUS, R80). -/
def writeRequest (addr : BusAddr) (v : Byte) : Request := .one (.write addr [v])

/-- The bus read of one byte (format BUS, R80). -/
def readRequest (addr : BusAddr) : Request := .one (.read addr 1)

/-- The encoder: the request that carries an instruction, from the formats of R80 to R82 and the words of R83. -/
def encode (cfg : Config) (i : Instr) : Request :=
  match i with
  | .busReadSave addr => readRequest addr
  | .busReadUnmapped addr => readRequest addr
  | .busWriteSave addr v => writeRequest addr v
  | .busWriteUnmapped addr v => writeRequest addr v
  | .sramRead off => readRequest (windowAddr cfg.saveTag off)
  | .sramWrite off v => writeRequest (windowAddr cfg.saveTag off) v
  | .flashReadData off => readRequest (windowAddr cfg.saveTag off)
  | .flashReadChipId off => readRequest (windowAddr cfg.saveTag off)
  | .unlock1 hi => writeRequest (windowAddr cfg.saveTag (flashOff hi 0x5555#16)) 0xAA#8
  | .unlock2 hi => writeRequest (windowAddr cfg.saveTag (flashOff hi 0x2AAA#16)) 0x55#8
  | .idEnter hi => writeRequest (windowAddr cfg.saveTag (flashOff hi 0x5555#16)) 0x90#8
  | .idExit hi => writeRequest (windowAddr cfg.saveTag (flashOff hi 0x5555#16)) 0xF0#8
  | .eraseArm hi => writeRequest (windowAddr cfg.saveTag (flashOff hi 0x5555#16)) 0x80#8
  | .chipErase hi => writeRequest (windowAddr cfg.saveTag (flashOff hi 0x5555#16)) 0x10#8
  | .sectorErase off => writeRequest (windowAddr cfg.saveTag off) 0x30#8
  | .programArm hi => writeRequest (windowAddr cfg.saveTag (flashOff hi 0x5555#16)) 0xA0#8
  | .bankArm hi => writeRequest (windowAddr cfg.saveTag (flashOff hi 0x5555#16)) 0xB0#8
  | .reject off v => writeRequest (windowAddr cfg.saveTag off) v
  | .programData off v => writeRequest (windowAddr cfg.saveTag off) v
  | .bankSelect hi b => writeRequest (windowAddr cfg.saveTag (flashOff hi 0#16)) b
  | .bankSelectBadAddr off v => writeRequest (windowAddr cfg.saveTag off) v
  | .setSaveDevice t seed => .one (.setSaveDevice t seed)
  | .getData => .one .getData
  | .getType => .one .getType
  | .storageType => .one .storageType
  | .snapshot => .one .snapshot
  | .restore r => .one (.restore r)

/-! ### The command rows as match and mask, and the opcode table's words -/

/-- One accepting row of R83's table: the states that list it, and its match and mask over the 24-bit command word. -/
structure CommandRow where
  mnemonic : String
  states : List Proto
  mtch : CommandWord
  mask : CommandWord
deriving DecidableEq, Repr

/-- The rows of R83 that carry a match and a mask. REJECT and BANK_SELECT_BADADDR carry none: they take the words that the
other rows of their state leave. -/
def commandTable : List CommandRow :=
  [ ⟨"UNLOCK1", [.wfc .zero .none, .wfc .zero .erase], 0x5555AA#24, 0xFFFFFF#24⟩,
    ⟨"UNLOCK2", [.wfc .one .none, .wfc .one .erase], 0x2AAA55#24, 0xFFFFFF#24⟩,
    ⟨"ID_ENTER", [.wfc .two .none], 0x555590#24, 0xFFFFFF#24⟩,
    ⟨"ID_EXIT", [.wfc .two .none], 0x5555F0#24, 0xFFFFFF#24⟩,
    ⟨"ERASE_ARM", [.wfc .two .none], 0x555580#24, 0xFFFFFF#24⟩,
    ⟨"CHIP_ERASE", [.wfc .two .erase], 0x555510#24, 0xFFFFFF#24⟩,
    ⟨"SECTOR_ERASE", [.wfc .two .erase], 0x000030#24, 0x0000FF#24⟩,
    ⟨"PROGRAM_ARM", [.wfc .two .none], 0x5555A0#24, 0xFFFFFF#24⟩,
    ⟨"BANK_ARM", [.wfc .two .none], 0x5555B0#24, 0xFFFFFF#24⟩,
    ⟨"PROGRAM_DATA", [.writeSingleByte], 0x000000#24, 0x000000#24⟩,
    ⟨"BANK_SELECT", [.bankChange], 0x000000#24, 0xFFFF00#24⟩ ]

/-- A row applies to a word in a state it lists when `CW & mask = match` (R83). -/
def CommandRow.takes (row : CommandRow) (p : Proto) (cw : CommandWord) : Bool :=
  row.states.contains p && (cw &&& row.mask) == row.mtch

/-- An instruction's row in spec/opcode_table.json. -/
def Instr.mnemonic (i : Instr) : String :=
  match i with
  | .busReadSave _ => "BUS_READ_SAVE"
  | .busReadUnmapped _ => "BUS_READ_UNMAPPED"
  | .busWriteSave _ _ => "BUS_WRITE_SAVE"
  | .busWriteUnmapped _ _ => "BUS_WRITE_UNMAPPED"
  | .sramRead _ => "SRAM_READ"
  | .sramWrite _ _ => "SRAM_WRITE"
  | .flashReadData _ => "FLASH_READ_DATA"
  | .flashReadChipId _ => "FLASH_READ_CHIPID"
  | .unlock1 _ => "UNLOCK1"
  | .unlock2 _ => "UNLOCK2"
  | .idEnter _ => "ID_ENTER"
  | .idExit _ => "ID_EXIT"
  | .eraseArm _ => "ERASE_ARM"
  | .chipErase _ => "CHIP_ERASE"
  | .sectorErase _ => "SECTOR_ERASE"
  | .programArm _ => "PROGRAM_ARM"
  | .bankArm _ => "BANK_ARM"
  | .reject _ _ => "REJECT"
  | .programData _ _ => "PROGRAM_DATA"
  | .bankSelect _ _ => "BANK_SELECT"
  | .bankSelectBadAddr _ _ => "BANK_SELECT_BADADDR"
  | .setSaveDevice _ _ => "SET_SAVE_DEVICE"
  | .getData => "GET_DATA"
  | .getType => "GET_TYPE"
  | .storageType => "STORAGE_TYPE"
  | .snapshot => "SNAPSHOT"
  | .restore _ => "RESTORE"

/-- A protocol state in which a command word is accepted by the row with the most fixed bits that takes it: all 24 bits,
then DATA alone (SECTOR_ERASE), then A16 alone (BANK_SELECT), then none (PROGRAM_DATA). The table's words name a row only
together with such a state (R83). DESIGN CHOICE: assumption 8. -/
def acceptingState (cw : CommandWord) : Proto :=
  if cw = 0x5555AA#24 then .wfc .zero .none
  else if cw = 0x2AAA55#24 then .wfc .one .none
  else if cw = 0x555590#24 ∨ cw = 0x5555F0#24 ∨ cw = 0x555580#24 ∨ cw = 0x5555A0#24 ∨ cw = 0x5555B0#24 then .wfc .two .none
  else if wordData cw = 0x30#8 ∨ cw = 0x555510#24 then .wfc .two .erase
  else if wordAddr cw = 0#16 then .bankChange
  else .writeSingleByte

/-- The save-window write that carries a command word, with `off[23:16] = 0`. -/
def wordRequest (cfg : Config) (cw : CommandWord) : Request :=
  writeRequest (windowAddr cfg.saveTag (flashOff 0#8 (wordAddr cw))) (wordData cw)

/-- The command word that a table word of `nbits` bits stands for, the bits above `nbits` zero. -/
def tableWord (nbits w : Nat) : CommandWord := BitVec.ofNat 24 (w % 2 ^ nbits)

/-- The instruction the decoder reads from a word of spec/opcode_table.json, in the word's accepting state. The table's
only words are the 24-bit command words of format FCW; a longer word is none of them. The tag takes no part in a command
row, so any configuration serves. -/
def decodeTableWord (nbits w : Nat) : Option Instr :=
  if nbits ≤ 24 then
    match decode ⟨0#8⟩ (.flash .data (acceptingState (tableWord nbits w))) (wordRequest ⟨0#8⟩ (tableWord nbits w)) with
    | .accepted i => some i
    | .rejected _ => none
  else none

end Sys2Proof
end

