-- ==== Sys2Proof/Machine/State.lean ====
section
/-! DEFINITION. The block's state (spec/10_state.md R20 to R35), as plain data, and the reasons a step can stop
(spec/60_exceptions.md R223, R225, R231). -/

namespace Sys2Proof.Machine

/-- Which device a buffer belongs to (R21). -/
inductive Kind where
  | sram
  | flash
deriving DecidableEq, Repr

/-- A device's buffer: its length, and its bytes as cells at storage indexes. An index with no cell holds the device's
default fill, `Memory.unlisted` (Ops.lean). Equal buffers are equal data when `Memory.wf` holds. -/
structure Memory where
  len : Nat
  cells : List Host.Cell
deriving DecidableEq, Repr

/-- The Sram device (R23): "no internal state beyond the buffer". -/
structure Sram where
  buf : Memory
deriving DecidableEq, Repr

/-- The flash device (R24): buffer, bank register (R26), read-mode register (R27) and protocol-state register (R28). -/
structure Flash where
  buf : Memory
  bank : Nat
  mode : ReadMode
  proto : Proto
deriving DecidableEq, Repr

/-- The device: a closed tagged variant with exactly two constructors (R21). -/
inductive Device where
  | sram (d : Sram)
  | flash (f : Flash)
deriving DecidableEq, Repr

/-- The fatal codes (R223). "The fault records its code. F1 also records `a16` and `v`." -/
inductive Fatal where
  /-- F1, BankChangeNonZeroAddress: raised by BANK_SELECT_BADADDR (R162). -/
  | bankChangeNonZeroAddress (a16 : FlashAddr) (v : Byte)
  /-- F2, FlashLengthInvariant: raised by GET_TYPE and STORAGE_TYPE (R201, R202); not reachable. -/
  | flashLengthInvariant
  /-- F3, SectorEraseOutOfRange: raised by SECTOR_ERASE (R137); not reachable. -/
  | sectorEraseOutOfRange
deriving DecidableEq, Repr

/-- The diagnostic codes W1 to W11 (R221), in order. -/
inductive DiagCode where
  /-- W1 -/
  | sramReadOutOfRange
  /-- W2 -/
  | sramWriteOutOfRange
  /-- W3 -/
  | unmappedRead
  /-- W4 -/
  | unmappedWrite
  /-- W5 -/
  | rejectedCommand
  /-- W6 -/
  | chipIdExitNotInChipId
  /-- W7 -/
  | bankOutOfRange
  /-- W8 -/
  | programOutOfRange
  /-- W9 -/
  | seedLengthMismatch
  /-- W10 -/
  | unsupportedSaveType
  /-- W11 -/
  | flashReadOutOfRange
deriving DecidableEq, Repr

/-- The operands a diagnostic event records (R221): `addr` for an event of the decoder, `off` for an event of a device,
with `v` for a write; the operands of `set_save_device` for W9 and W10. DESIGN CHOICE: assumption 6. -/
inductive DiagOperands where
  | busRead (addr : BusAddr)
  | busWrite (addr : BusAddr) (v : Byte)
  | devRead (off : Offset)
  | devWrite (off : Offset) (v : Byte)
  | substitution (t : SaveTypeInput) (seed : Option (List Byte))
deriving DecidableEq, Repr

/-- A diagnostic event: its code and the operands of the operation that raised it (R221). -/
structure Diag where
  code : DiagCode
  operands : DiagOperands
deriving DecidableEq, Repr

/-- What an operation answers its caller. -/
inductive Result where
  /-- a read's byte (R100) -/
  | byte (b : Byte)
  /-- the raw buffer view (R200) -/
  | bytes (view : List Byte)
  /-- the SaveType (R201) -/
  | saveType (t : SaveType)
  /-- the display label (R202) -/
  | label (text : String)
  /-- the discarded device (R109) -/
  | oldDevice (d : Device)
  /-- the snapshot record (R203) -/
  | snapshot (r : Record)
deriving DecidableEq, Repr

/-- What one step puts out (R6): a result, where the operation has one, and a finite list of diagnostic events in order. -/
structure Output where
  result : Option Result
  diags : List Diag
deriving DecidableEq, Repr

/-- No result and no diagnostic. -/
abbrev Output.silent : Output := ⟨none, []⟩

/-- The state. `dev` and `fault` are the block's own (R20). `cfg` is the configuration the step takes (R33; assumption 1).
`pending` holds the requests the caller has lined up, oldest first (assumption 2), and `out` holds what the last
operation put out (R6; assumption 3); no rule reads `out`. -/
structure State where
  cfg : Config
  dev : Device
  fault : Option Fatal
  pending : List Request
  out : Output
deriving DecidableEq, Repr

/-- Why the machine is stuck. -/
inductive Fault where
  /-- Raised by every instruction and by `step` when a fatal fault is recorded: "After a fault, no operation of the block has
  a step" (R225, R226). Safe: nothing can be proved of a run beyond it (decision D8). -/
  | stopped (f : Fatal)
deriving DecidableEq, Repr

/-- Why the model gives a request no meaning (R231). -/
inductive Refusal where
  /-- An instruction that has no meaning yet. No arm of `exec` gives it. Safe. -/
  | notModelled (mnemonic : String)
  /-- X1, raised by `step` on overlapping operations (R68). Safe: the run ends. -/
  | overlappingOperations
  /-- X2, raised by `step` on a bus access that is not one byte wide (R58). Safe: the run ends. -/
  | wideAccess
  /-- X3, raised by RESTORE on a record that breaks an invariant (R205). Safe: the run ends. -/
  | invalidSnapshot
deriving DecidableEq, Repr

/-- Power-on (R34, R250): an Sram device of 65536 bytes of 0x00 and no fault, under any configuration. Nothing is pending
and nothing has been put out (assumptions 2 and 3). -/
def State.powerOn (cfg : Config) : State :=
  { cfg := cfg, dev := .sram { buf := { len := 65536, cells := [] } }, fault := none, pending := [], out := Output.silent }

/-- The machine right after reset: power-on (R34, R250), with the tag of the spec's test vectors (assumption 1). -/
def State.reset : State := State.powerOn Config.testVectors

end Sys2Proof.Machine
end

