-- ==== Sys2Proof/Machine/Flags.lean ====
section
/-! DEFINITION. The block has no condition codes (spec/10_state.md R32). Its mode-like registers are the read mode and the
protocol state; what stands here are the conditions the rules test on them, and the identification tables, which are
functions of the buffer length (spec/00_scope.md R2, spec/44_flash_reads.md R184, spec/45_host_interface.md R206). -/

namespace Sys2Proof.Machine

/-- Whether a write is accepted in a protocol state, from the command codes of R87 and the unlock words of R131 and R132. In
the armed states no word is rejected (R86). -/
def accepts (p : Proto) (a : FlashAddr) (v : Byte) : Bool :=
  match p with
  | .wfc .zero _ => a == 0x5555#16 && v == 0xAA#8
  | .wfc .one _ => a == 0x2AAA#16 && v == 0x55#8
  | .wfc .two .none => a == 0x5555#16 && (v == 0x90#8 || v == 0xF0#8 || v == 0x80#8 || v == 0xA0#8 || v == 0xB0#8)
  | .wfc .two .erase => a == 0x5555#16 && v == 0x10#8 || v == 0x30#8
  | .writeSingleByte => true
  | .bankChange => true

/-- W6's condition: `5555/F0` accepted while the device is not in chip-ID mode (R134). -/
def exitWithoutEntry (m : ReadMode) : Bool := m != .chipId

/-- W7's condition: a bank value that is not below the number of banks, compared whole (R163). -/
def bankOutOfRange (b : Byte) (len : Nat) : Bool := decide (numBanks len ≤ b.toNat)

/-- `MANUFACTURER_ID(len)` (R184). A length outside the table is in no reachable state and has a free value
(assumption 9). -/
def manufacturerId (len : Nat) : Byte :=
  if len = 65536 then 0xBF#8 else if len = 131072 then 0x62#8 else Config.unlistedChipId len 0

/-- `DEVICE_ID(len)` (R184). -/
def deviceId (len : Nat) : Byte :=
  if len = 65536 then 0xD4#8 else if len = 131072 then 0x13#8 else Config.unlistedChipId len 1

/-- The SaveType a flash reports, from its buffer length only (R201); none for a length outside the table. -/
def flashType (len : Nat) : Option SaveType :=
  if len = 65536 then some .flash64K else if len = 131072 then some .flash128K else none

/-- The label a flash reports, from its buffer length only (R202). -/
def flashLabel (len : Nat) : Option String :=
  if len = 65536 then some "FLASH (512K)" else if len = 131072 then some "FLASH (1M)" else none

/-- The Sram device's label (R122, R202). -/
def sramLabel : String := "SRAM (64K)"

/-- What decoding reads of a device (R84). -/
def Device.view (d : Device) : DeviceView :=
  match d with
  | .sram _ => .sram
  | .flash f => .flash f.mode f.proto

end Sys2Proof.Machine
end

