-- ==== Sys2Proof/Machine/Ops.lean ====
section
/-! DEFINITION. The named operations over buffers, devices and the state that the meanings share: memory, the devices'
read and write operations (spec/41_sram.md, 42_flash_commands.md, 43_flash_data_phase.md, 44_flash_reads.md), fault entry
(spec/60_exceptions.md R224), device substitution (spec/40_memory_map.md R104 to R109), snapshot and restore
(spec/45_host_interface.md R203 to R205), and what a step fetches. -/

namespace Sys2Proof.Machine

/-! ### Memory -/

/-- What an index with no cell holds: the default fill, 0x00 for Sram and 0xFF for flash (R7), which is also the erased
byte value. Assumption 7. -/
def Memory.unlisted (k : Kind) : Byte :=
  match k with
  | .sram => 0x00#8
  | .flash => 0xFF#8

/-- The byte the first cell at index `a` holds, or `u`. -/
def readCells (u : Byte) : List Host.Cell → Nat → Byte
  | [], _ => u
  | c :: cs, a => if c.1 = a then c.2 else readCells u cs a

/-- Puts a cell before the first cell with a larger index. -/
def insertCell (c : Host.Cell) : List Host.Cell → List Host.Cell
  | [] => [c]
  | d :: ds => if c.1 < d.1 then c :: d :: ds else d :: insertCell c ds

/-- `buf[a]` (R10). -/
def Memory.read (k : Kind) (m : Memory) (a : Nat) : Byte := readCells (Memory.unlisted k) m.cells a

/-- The cells with no cell in `[lo, hi)`. -/
def clearCells (lo hi : Nat) (cs : List Host.Cell) : List Host.Cell := cs.filter fun c => decide (c.1 < lo ∨ hi ≤ c.1)

/-- `buf[a] <- v` (R10): the one cell at `a` is taken out, and put in anew unless `v` is what an unlisted index holds. -/
def Memory.write (k : Kind) (m : Memory) (a : Nat) (v : Byte) : Memory :=
  let rest := clearCells a (a + 1) m.cells
  { m with cells := if v = Memory.unlisted k then rest else insertCell (a, v) rest }

/-- `for i in lo .. hi-1: buf[i] <- fill`, where `fill` is what an unlisted index holds: 0xFF on a flash (R136, R137). -/
def Memory.erase (m : Memory) (lo hi : Nat) : Memory := { m with cells := clearCells lo hi m.cells }

/-- The cells of a byte sequence that starts at index `a`. -/
def cellsOfBytes (u : Byte) : Nat → List Byte → List Host.Cell
  | _, [] => []
  | a, b :: bs => if b = u then cellsOfBytes u (a + 1) bs else (a, b) :: cellsOfBytes u (a + 1) bs

/-- A buffer that holds a byte sequence. -/
def Memory.ofBytes (k : Kind) (bytes : List Byte) : Memory :=
  { len := bytes.length, cells := cellsOfBytes (Memory.unlisted k) 0 bytes }

/-- `n` bytes of the default fill. -/
def Memory.filled (n : Nat) : Memory := { len := n, cells := [] }

/-- `buf[0 .. len-1]`, in index order (R59, R200). -/
def Memory.bytes (k : Kind) (m : Memory) : List Byte := (List.range m.len).map (m.read k)

/-- The canonical form: cells at strictly rising indexes below the length, none holding what an unlisted index holds. -/
abbrev Memory.wf (k : Kind) (m : Memory) : Prop :=
  m.cells.Pairwise (fun c d => c.1 < d.1) ∧ ∀ c ∈ m.cells, c.1 < m.len ∧ c.2 ≠ Memory.unlisted k

/-! ### What a device operation does -/

/-- What an operation that can raise a fatal fault does: it completes with a value and diagnostics, or raises. -/
inductive Effect (α : Type) where
  | done (a : α) (diags : List Diag)
  | raised (f : Fatal)
deriving DecidableEq, Repr

/-- The same effect over a larger value. -/
def Effect.map {α β : Type} (g : α → β) (e : Effect α) : Effect β :=
  match e with
  | .done a ds => .done (g a) ds
  | .raised f => .raised f

/-- What a device read does: "exactly one byte" (R102), and diagnostics. -/
structure ReadReply where
  byte : Byte
  diags : List Diag
deriving DecidableEq, Repr

/-! ### The Sram device -/

/-- Sram `DevRead(off)` (R120). -/
def Sram.read (d : Sram) (off : Offset) : ReadReply :=
  if off.toNat < 65536 then ⟨d.buf.read .sram off.toNat, []⟩ else ⟨0xFF#8, [⟨.sramReadOutOfRange, .devRead off⟩]⟩

/-- Sram `DevWrite(off, v)` (R121). -/
def Sram.write (d : Sram) (off : Offset) (v : Byte) : Effect Sram :=
  if off.toNat < 65536 then .done { d with buf := d.buf.write .sram off.toNat v } []
  else .done d [⟨.sramWriteOutOfRange, .devWrite off v⟩]

/-! ### Flash reads -/

/-- FLASH_READ_DATA (R181), with the out-of-bounds branch of R182. -/
def Flash.readData (f : Flash) (off : Offset) : ReadReply :=
  let idx := storageIndex f.bank (a16Of off)
  if f.buf.len ≤ idx then ⟨0xFF#8, [⟨.flashReadOutOfRange, .devRead off⟩]⟩ else ⟨f.buf.read .flash idx, []⟩

/-- FLASH_READ_CHIPID (R183). -/
def Flash.readChipId (f : Flash) (off : Offset) : ReadReply :=
  if a16Of off = 0x0000#16 then ⟨manufacturerId f.buf.len, []⟩
  else if a16Of off = 0x0001#16 then ⟨deviceId f.buf.len, []⟩
  else ⟨0x00#8, []⟩

/-- Flash `DevRead(off)` (R180). -/
def Flash.read (f : Flash) (off : Offset) : ReadReply :=
  match f.mode with
  | .data => f.readData off
  | .chipId => f.readChipId off

/-! ### Flash writes: what each row does -/

/-- UNLOCK1 in context `c` (R131). -/
def Flash.unlock1 (f : Flash) (c : Context) : Effect Flash := .done { f with proto := .wfc .one c } []

/-- UNLOCK2 in context `c` (R132). -/
def Flash.unlock2 (f : Flash) (c : Context) : Effect Flash := .done { f with proto := .wfc .two c } []

/-- ID_ENTER (R133). -/
def Flash.idEnter (f : Flash) : Effect Flash := .done { f with mode := .chipId, proto := .idle } []

/-- ID_EXIT (R134); the write `(off, v)` is what W6 records. -/
def Flash.idExit (f : Flash) (off : Offset) (v : Byte) : Effect Flash :=
  .done { f with mode := .data, proto := .idle }
    (if exitWithoutEntry f.mode then [⟨.chipIdExitNotInChipId, .devWrite off v⟩] else [])

/-- ERASE_ARM (R135). -/
def Flash.eraseArm (f : Flash) : Effect Flash := .done { f with proto := .wfc .zero .erase } []

/-- CHIP_ERASE (R136). -/
def Flash.chipErase (f : Flash) : Effect Flash := .done { f with buf := f.buf.erase 0 f.buf.len, proto := .idle } []

/-- SECTOR_ERASE (R137), with the guard F3. -/
def Flash.sectorErase (f : Flash) (off : Offset) : Effect Flash :=
  let base := sectorBase f.bank (a16Of off)
  if f.buf.len < base + 4096 then .raised .sectorEraseOutOfRange
  else .done { f with buf := f.buf.erase base (base + 4096), proto := .idle } []

/-- PROGRAM_ARM (R138). -/
def Flash.programArm (f : Flash) : Effect Flash := .done { f with proto := .writeSingleByte } []

/-- BANK_ARM (R139). -/
def Flash.bankArm (f : Flash) : Effect Flash := .done { f with proto := .bankChange } []

/-- REJECT (R140): W5, and nothing else happens. -/
def Flash.reject (f : Flash) (off : Offset) (v : Byte) : Effect Flash := .done f [⟨.rejectedCommand, .devWrite off v⟩]

/-- PROGRAM_DATA (R160), with the out-of-bounds branch of R161, which stays armed. -/
def Flash.programData (f : Flash) (off : Offset) (v : Byte) : Effect Flash :=
  let idx := storageIndex f.bank (a16Of off)
  if f.buf.len ≤ idx then .done f [⟨.programOutOfRange, .devWrite off v⟩]
  else .done { f with buf := f.buf.write .flash idx (f.buf.read .flash idx &&& v), proto := .idle } []

/-- BANK_SELECT: an out-of-range value (R163), or a legal one (R164). -/
def Flash.bankSelect (f : Flash) (off : Offset) (b : Byte) : Effect Flash :=
  if bankOutOfRange b f.buf.len then .done { f with proto := .idle } [⟨.bankOutOfRange, .devWrite off b⟩]
  else .done { f with bank := b.toNat, proto := .idle } []

/-- BANK_SELECT_BADADDR (R162): the fatal fault F1, recording `a16` and `v` (R223). -/
def Flash.bankSelectBadAddr (_f : Flash) (off : Offset) (v : Byte) : Effect Flash :=
  .raised (.bankChangeNonZeroAddress (a16Of off) v)

/-- Flash `DevWrite(off, v)`: the dispatch of R130. -/
def Flash.write (f : Flash) (off : Offset) (v : Byte) : Effect Flash :=
  match f.proto with
  | .wfc s c =>
    if s = .zero ∧ a16Of off = 0x5555#16 ∧ v = 0xAA#8 then f.unlock1 c
    else if s = .one ∧ a16Of off = 0x2AAA#16 ∧ v = 0x55#8 then f.unlock2 c
    else if s = .two ∧ c = .none ∧ a16Of off = 0x5555#16 ∧ v = 0x90#8 then f.idEnter
    else if s = .two ∧ c = .none ∧ a16Of off = 0x5555#16 ∧ v = 0xF0#8 then f.idExit off v
    else if s = .two ∧ c = .none ∧ a16Of off = 0x5555#16 ∧ v = 0x80#8 then f.eraseArm
    else if s = .two ∧ c = .erase ∧ a16Of off = 0x5555#16 ∧ v = 0x10#8 then f.chipErase
    else if s = .two ∧ c = .erase ∧ v = 0x30#8 then f.sectorErase off
    else if s = .two ∧ c = .none ∧ a16Of off = 0x5555#16 ∧ v = 0xA0#8 then f.programArm
    else if s = .two ∧ c = .none ∧ a16Of off = 0x5555#16 ∧ v = 0xB0#8 then f.bankArm
    else f.reject off v
  | .writeSingleByte => f.programData off v
  | .bankChange => if a16Of off = 0#16 then f.bankSelect off v else f.bankSelectBadAddr off v

/-! ### The device contract -/

/-- `DevRead(off)` of the active device (R100, R102). -/
def Device.read (d : Device) (off : Offset) : ReadReply :=
  match d with
  | .sram x => x.read off
  | .flash f => f.read off

/-- `DevWrite(off, v)` of the active device (R101, R103). -/
def Device.write (d : Device) (off : Offset) (v : Byte) : Effect Device :=
  match d with
  | .sram x => (x.write off v).map .sram
  | .flash f => (f.write off v).map .flash

/-- The whole buffer of a device, in index order (R200). -/
def Device.bytes (d : Device) : List Byte :=
  match d with
  | .sram x => x.buf.bytes .sram
  | .flash f => f.buf.bytes .flash

/-- `get_type()` (R201). -/
def Device.saveType (d : Device) : Effect SaveType :=
  match d with
  | .sram _ => .done .sram []
  | .flash f =>
    match flashType f.buf.len with
    | some t => .done t []
    | none => .raised .flashLengthInvariant

/-- `storage_type()` (R202). -/
def Device.label (d : Device) : Effect String :=
  match d with
  | .sram _ => .done sramLabel []
  | .flash f =>
    match flashLabel f.buf.len with
    | some l => .done l []
    | none => .raised .flashLengthInvariant

/-! ### Device substitution -/

/-- `Seeded(seed, n, fill)` (R108), where `fill` is the default fill of the device kind; the flag says whether W9 is
emitted. -/
def seeded (k : Kind) (seed : Option (List Byte)) (n : Nat) : Memory × Bool :=
  match seed with
  | none => (Memory.filled n, false)
  | some bytes => if bytes.length = n then (Memory.ofBytes k bytes, false) else (Memory.filled n, true)

/-- A new Sram device (R105), and whether W9 is emitted. -/
def buildSram (seed : Option (List Byte)) : Device × Bool :=
  let (m, mismatch) := seeded .sram seed 65536
  (.sram { buf := m }, mismatch)

/-- A new flash device of `n` bytes (R106, R252; initial registers: decision D4), and whether W9 is emitted. -/
def buildFlash (seed : Option (List Byte)) (n : Nat) : Device × Bool :=
  let (m, mismatch) := seeded .flash seed n
  (.flash { buf := m, bank := 0, mode := .data, proto := .idle }, mismatch)

/-- The new device of `set_save_device(t, seed)` (R104), and whether W9 is emitted. -/
def buildDevice (t : SaveTypeInput) (seed : Option (List Byte)) : Device × Bool :=
  match t with
  | .named .none => buildSram seed
  | .named .sram => buildSram seed
  | .named .flash64K => buildFlash seed 65536
  | .named .flash128K => buildFlash seed 131072
  | .named .eeprom4K => buildSram seed
  | .named .eeprom64K => buildSram seed
  | .unrecognized => buildSram seed

/-- W10's condition: EEPROM4K, EEPROM64K and unrecognised types (R107). -/
def unsupportedType (t : SaveTypeInput) : Bool :=
  match t with
  | .named .eeprom4K => true
  | .named .eeprom64K => true
  | .unrecognized => true
  | .named .none => false
  | .named .sram => false
  | .named .flash64K => false
  | .named .flash128K => false

/-- The diagnostics of `set_save_device`: W10 before W9 (R107, R228). -/
def substitutionDiags (t : SaveTypeInput) (seed : Option (List Byte)) : List Diag :=
  (if unsupportedType t then [⟨.unsupportedSaveType, .substitution t seed⟩] else []) ++
  (if (buildDevice t seed).2 then [⟨.seedLengthMismatch, .substitution t seed⟩] else [])

/-! ### Snapshot and restore -/

/-- A context as a record holds it. -/
def recordContext (c : Context) : RecordContext :=
  match c with
  | .none => .none
  | .erase => .erase

/-- The step number of R11. -/
def stepNumber (s : UnlockStep) : Nat :=
  match s with
  | .zero => 0
  | .one => 1
  | .two => 2

/-- The protocol state as a record holds it (R203). -/
def recordProto (p : Proto) : RecordProto :=
  match p with
  | .wfc s c => .wfc (stepNumber s) (recordContext c)
  | .writeSingleByte => .writeSingleByte
  | .bankChange => .bankChange

/-- The snapshot of a device (R203). -/
def Device.snapshot (d : Device) : Record :=
  match d with
  | .sram x => .sram (x.buf.bytes .sram)
  | .flash f => .flash (f.buf.bytes .flash) f.bank f.mode (recordProto f.proto)

/-- The step a record's number stands for; none outside {0, 1, 2} (R205). -/
def stepOfNumber (n : Nat) : Option UnlockStep :=
  match n with
  | 0 => some .zero
  | 1 => some .one
  | 2 => some .two
  | _ => none

/-- The context a record's field stands for; none outside {None, Erase} (R205). -/
def contextOfRecord (c : RecordContext) : Option Context :=
  match c with
  | .none => some .none
  | .erase => some .erase
  | .other => none

/-- The protocol state a record stands for (R205). -/
def protoOfRecord (p : RecordProto) : Option Proto :=
  match p with
  | .wfc n c =>
    match stepOfNumber n, contextOfRecord c with
    | some s, some x => some (.wfc s x)
    | _, _ => none
  | .writeSingleByte => some .writeSingleByte
  | .bankChange => some .bankChange

/-- The device a record stands for, or none for a record that no state of the block could have produced (R205). -/
def deviceOfRecord (r : Record) : Option Device :=
  match r with
  | .sram buf => if buf.length = 65536 then some (.sram { buf := Memory.ofBytes .sram buf }) else none
  | .flash buf bank mode proto =>
    if (buf.length = 65536 ∨ buf.length = 131072) ∧ bank < numBanks buf.length then
      (protoOfRecord proto).map fun p => .flash { buf := Memory.ofBytes .flash buf, bank := bank, mode := mode, proto := p }
    else none

/-! ### What an operation does to the state -/

/-- An answer of a meaning. -/
abbrev Answer := Host.Outcome State Fault Refusal

/-- Puts out `o`; the block's own state is unchanged. -/
def State.emit (s : State) (o : Output) : State := { s with out := o }

/-- `dev <- d`, putting out `o`. -/
def State.install (s : State) (d : Device) (o : Output) : State := { s with dev := d, out := o }

/-- Fault entry, `raise Fatal(f)` (R224): `fault <- some f`, and no other change of the block's state. "No state is saved
elsewhere, no vector is taken and no handler runs." The step puts out nothing. There is no return beside it: "No operation
returns from a fault and no operation clears `fault`" (R226). -/
def State.takeFatal (s : State) (f : Fatal) : State := { s with fault := some f, out := Output.silent }

/-- A fault already recorded comes before everything else (R225, R228): such an operation has no step. -/
def whenLive (s : State) (a : Answer) : Answer :=
  match s.fault with
  | none => a
  | some f => .fault (.stopped f)

/-- A device write's effect on the state. -/
def State.commit (s : State) (e : Effect Device) : Answer :=
  match e with
  | .done d ds => .next (s.install d ⟨none, ds⟩)
  | .raised f => .next (s.takeFatal f)

/-- A read's effect on the state: none, but for what is put out (R30). -/
def State.reply (s : State) (r : ReadReply) : Answer := .next (s.emit ⟨some (.byte r.byte), r.diags⟩)

/-- An inspection's effect on the state: none, but for what is put out, or a fatal fault. -/
def State.answer (s : State) (e : Effect Result) : Answer :=
  match e with
  | .done r ds => .next (s.emit ⟨some r, ds⟩)
  | .raised f => .next (s.takeFatal f)

/-- `read_byte` outside the save window (R100). -/
def State.unmappedRead (s : State) (addr : BusAddr) : Answer := s.reply ⟨0xFF#8, [⟨.unmappedRead, .busRead addr⟩]⟩

/-- `write_byte` outside the save window (R101): W4, no state change. -/
def State.unmappedWrite (s : State) (addr : BusAddr) (v : Byte) : Answer :=
  .next (s.emit ⟨none, [⟨.unmappedWrite, .busWrite addr v⟩]⟩)

/-- The save-window test (R51). -/
def State.inWindow (s : State) (addr : BusAddr) : Bool := tagOf addr == s.cfg.saveTag

/-- `read_byte(addr)` (R100). -/
def State.busRead (s : State) (addr : BusAddr) : Answer :=
  if s.inWindow addr then s.reply (s.dev.read (offOf addr)) else s.unmappedRead addr

/-- `write_byte(addr, v)` (R101). -/
def State.busWrite (s : State) (addr : BusAddr) (v : Byte) : Answer :=
  if s.inWindow addr then s.commit (s.dev.write (offOf addr) v) else s.unmappedWrite addr v

/-- The meaning of a device row that reads: the row's own effect where the row applies, and elsewhere what the same access
does to the device there is (assumption 5). -/
def readRow (s : State) (off : Offset) (own : Device → Option ReadReply) : Answer :=
  whenLive s (s.reply ((own s.dev).getD (s.dev.read off)))

/-- The meaning of a device row that writes: the row's own effect where the row applies, and elsewhere what the same write
does to the device there is (assumption 5). -/
def writeRow (s : State) (off : Offset) (v : Byte) (own : Device → Option (Effect Device)) : Answer :=
  whenLive s (s.commit ((own s.dev).getD (s.dev.write off v)))

/-- `writeRow` for a flash command row. -/
def flashRow (s : State) (off : Offset) (v : Byte) (own : Flash → Option (Effect Flash)) : Answer :=
  writeRow s off v fun d =>
    match d with
    | .sram _ => none
    | .flash f => (own f).map (Effect.map .flash)

/-! ### What a step fetches -/

/-- The next request the caller presents, if there is one (assumption 2). -/
def State.fetch (s : State) : Option Request := s.pending.head?

/-- The state with the next request taken. -/
def State.consume (s : State) : State := { s with pending := s.pending.tail }

/-- What the block does when nothing is presented: nothing (assumption 4). -/
def State.idle (s : State) : State := s

/-- The refusal of a request the decoder rejects (R231). -/
def refusalOf (r : Reject) : Refusal :=
  match r with
  | .overlap => .overlappingOperations
  | .wide => .wideAccess

/-- A flash device in protocol state `p`: the device there is, or a new Flash64K. Used by `State.withFetchWord` only. -/
def flashIn (d : Device) (p : Proto) : Device :=
  match d with
  | .flash f => .flash { f with proto := p }
  | .sram _ => .flash { buf := Memory.filled 65536, bank := 0, mode := .data, proto := p }

/-- The state whose next request is the write of a command word, with the flash device and protocol state that give the
word its row (assumption 8). -/
def State.placeWord (s : State) (cw : CommandWord) : State :=
  { s with dev := flashIn s.dev (acceptingState cw), fault := none, pending := wordRequest s.cfg cw :: s.pending }

end Sys2Proof.Machine
end

