-- ==== Sys2Proof/Machine/FlashCommands.lean ====
section
/-! DEFINITION. The meanings of the flash rows of the `WaitForCommand` states (spec/42_flash_commands.md R130 to R140). Each
gives the row's effect in the protocol states that list it. In any other state the word is another row's (R83), and the
write does what R130 says there (assumption 5). -/

namespace Sys2Proof.Machine

/-- UNLOCK1, `5555/AA` (R131): accepted in `WFC(0,c)`. -/
def execUnlock1 (hi : BitVec 8) (s : State) : Answer :=
  flashRow s (flashOff hi 0x5555#16) 0xAA#8 fun f =>
    match f.proto with
    | .wfc .zero c => some (f.unlock1 c)
    | _ => none

/-- UNLOCK2, `2AAA/55` (R132): accepted in `WFC(1,c)`. -/
def execUnlock2 (hi : BitVec 8) (s : State) : Answer :=
  flashRow s (flashOff hi 0x2AAA#16) 0x55#8 fun f =>
    match f.proto with
    | .wfc .one c => some (f.unlock2 c)
    | _ => none

/-- ID_ENTER, `5555/90` (R133): accepted in `WFC(2,None)`. -/
def execIdEnter (hi : BitVec 8) (s : State) : Answer :=
  flashRow s (flashOff hi 0x5555#16) 0x90#8 fun f => if f.proto = .wfc .two .none then some f.idEnter else none

/-- ID_EXIT, `5555/F0` (R134): accepted in `WFC(2,None)`. -/
def execIdExit (hi : BitVec 8) (s : State) : Answer :=
  flashRow s (flashOff hi 0x5555#16) 0xF0#8 fun f =>
    if f.proto = .wfc .two .none then some (f.idExit (flashOff hi 0x5555#16) 0xF0#8) else none

/-- ERASE_ARM, `5555/80` (R135): accepted in `WFC(2,None)`. -/
def execEraseArm (hi : BitVec 8) (s : State) : Answer :=
  flashRow s (flashOff hi 0x5555#16) 0x80#8 fun f => if f.proto = .wfc .two .none then some f.eraseArm else none

/-- CHIP_ERASE, `5555/10` (R136): accepted in `WFC(2,Erase)`. -/
def execChipErase (hi : BitVec 8) (s : State) : Answer :=
  flashRow s (flashOff hi 0x5555#16) 0x10#8 fun f => if f.proto = .wfc .two .erase then some f.chipErase else none

/-- SECTOR_ERASE, `ssss/30` (R137): accepted in `WFC(2,Erase)`. -/
def execSectorErase (off : Offset) (s : State) : Answer :=
  flashRow s off 0x30#8 fun f => if f.proto = .wfc .two .erase then some (f.sectorErase off) else none

/-- PROGRAM_ARM, `5555/A0` (R138): accepted in `WFC(2,None)`. -/
def execProgramArm (hi : BitVec 8) (s : State) : Answer :=
  flashRow s (flashOff hi 0x5555#16) 0xA0#8 fun f => if f.proto = .wfc .two .none then some f.programArm else none

/-- BANK_ARM, `5555/B0` (R139): accepted in `WFC(2,None)`. -/
def execBankArm (hi : BitVec 8) (s : State) : Answer :=
  flashRow s (flashOff hi 0x5555#16) 0xB0#8 fun f => if f.proto = .wfc .two .none then some f.bankArm else none

/-- REJECT (R140): applies in a `WFC` state that accepts no row for the word. -/
def execReject (off : Offset) (v : Byte) (s : State) : Answer :=
  flashRow s off v fun f => if accepts f.proto (a16Of off) v then none else some (f.reject off v)

end Sys2Proof.Machine
end

