-- ==== Sys2Proof/Machine/FlashData.lean ====
section
/-! DEFINITION. The meanings of the flash rows of the two armed states (spec/43_flash_data_phase.md R160 to R164). In any
other state the word is another row's (R83), and the write does what R130 says there (assumption 5). -/

namespace Sys2Proof.Machine

/-- PROGRAM_DATA (R160, R161): every word, in `WSB`. -/
def execProgramData (off : Offset) (v : Byte) (s : State) : Answer :=
  flashRow s off v fun f => if f.proto = .writeSingleByte then some (f.programData off v) else none

/-- BANK_SELECT, `0000/bb` in `BCH` (R163, R164). -/
def execBankSelect (hi : BitVec 8) (b : Byte) (s : State) : Answer :=
  flashRow s (flashOff hi 0#16) b fun f =>
    if f.proto = .bankChange then some (f.bankSelect (flashOff hi 0#16) b) else none

/-- BANK_SELECT_BADADDR, a word with `A16 != 0` in `BCH` (R162): fault entry with F1. -/
def execBankSelectBadAddr (off : Offset) (v : Byte) (s : State) : Answer :=
  flashRow s off v fun f =>
    if f.proto = .bankChange ∧ a16Of off ≠ 0#16 then some (f.bankSelectBadAddr off v) else none

end Sys2Proof.Machine
end

