-- ==== Sys2Proof/Machine/FlashReads.lean ====
section
/-! DEFINITION. The meanings of the flash read rows (spec/44_flash_reads.md R180 to R184). -/

namespace Sys2Proof.Machine

/-- FLASH_READ_DATA (R181, R182): applies in data mode. -/
def execFlashReadData (off : Offset) (s : State) : Answer :=
  readRow s off fun d =>
    match d with
    | .flash f => if f.mode = .data then some (f.readData off) else none
    | .sram _ => none

/-- FLASH_READ_CHIPID (R183, R184): applies in chip-ID mode. -/
def execFlashReadChipId (off : Offset) (s : State) : Answer :=
  readRow s off fun d =>
    match d with
    | .flash f => if f.mode = .chipId then some (f.readChipId off) else none
    | .sram _ => none

end Sys2Proof.Machine
end

