-- ==== Sys2Proof/Machine/HostInterface.lean ====
section
/-! DEFINITION. The meanings of the host's inspection, snapshot and restore rows (spec/45_host_interface.md R200 to R206). -/

namespace Sys2Proof.Machine

/-- GET_DATA (R200). -/
def execGetData (s : State) : Answer := whenLive s (s.answer (.done (.bytes s.dev.bytes) []))

/-- GET_TYPE (R201). -/
def execGetType (s : State) : Answer := whenLive s (s.answer (s.dev.saveType.map .saveType))

/-- STORAGE_TYPE (R202). -/
def execStorageType (s : State) : Answer := whenLive s (s.answer (s.dev.label.map .label))

/-- SNAPSHOT (R203). -/
def execSnapshot (s : State) : Answer := whenLive s (s.answer (.done (.snapshot s.dev.snapshot) []))

/-- RESTORE (R204): a device substitution that emits no diagnostic; it puts out the old device as substitution does
(assumption 11). An invalid record is refused, X3 (R205). -/
def execRestore (r : Record) (s : State) : Answer :=
  whenLive s
    (match deviceOfRecord r with
     | some d => .next (s.install d ⟨some (.oldDevice s.dev), []⟩)
     | none => .refused .invalidSnapshot)

end Sys2Proof.Machine
end

