-- ==== Sys2Proof/Machine/MemoryMap.lean ====
section
/-! DEFINITION. The meanings of the decoder's rows and of device substitution (spec/40_memory_map.md R100 to R109). -/

namespace Sys2Proof.Machine

/-- BUS_READ_SAVE: the save-window half of `read_byte` (R100). -/
def execBusReadSave (addr : BusAddr) (s : State) : Answer :=
  whenLive s (if s.inWindow addr then s.reply (s.dev.read (offOf addr)) else s.busRead addr)

/-- BUS_READ_UNMAPPED: the other half of `read_byte` (R100). -/
def execBusReadUnmapped (addr : BusAddr) (s : State) : Answer :=
  whenLive s (if s.inWindow addr then s.busRead addr else s.unmappedRead addr)

/-- BUS_WRITE_SAVE: the save-window half of `write_byte` (R101). -/
def execBusWriteSave (addr : BusAddr) (v : Byte) (s : State) : Answer :=
  whenLive s (if s.inWindow addr then s.commit (s.dev.write (offOf addr) v) else s.busWrite addr v)

/-- BUS_WRITE_UNMAPPED: the other half of `write_byte` (R101). -/
def execBusWriteUnmapped (addr : BusAddr) (v : Byte) (s : State) : Answer :=
  whenLive s (if s.inWindow addr then s.busWrite addr v else s.unmappedWrite addr v)

/-- SET_SAVE_DEVICE (R104): the new device replaces the old one whole (R22), and the old one is put out (R109). -/
def execSetSaveDevice (t : SaveTypeInput) (seed : Option (List Byte)) (s : State) : Answer :=
  whenLive s (.next (s.install (buildDevice t seed).1 ⟨some (.oldDevice s.dev), substitutionDiags t seed⟩))

end Sys2Proof.Machine
end

