-- ==== Sys2Proof/Machine/SramDevice.lean ====
section
/-! DEFINITION. The meanings of the Sram device's rows (spec/41_sram.md R120, R121). -/

namespace Sys2Proof.Machine

/-- SRAM_READ (R120). -/
def execSramRead (off : Offset) (s : State) : Answer :=
  readRow s off fun d =>
    match d with
    | .sram x => some (x.read off)
    | .flash _ => none

/-- SRAM_WRITE (R121). -/
def execSramWrite (off : Offset) (v : Byte) (s : State) : Answer :=
  writeRow s off v fun d =>
    match d with
    | .sram x => some ((x.write off v).map .sram)
    | .flash _ => none

end Sys2Proof.Machine
end

