-- ==== Sys2Proof/Machine/Dispatch.lean ====
section
/-! DEFINITION. One arm per row of spec/opcode_table.json. -/

namespace Sys2Proof.Machine

def exec (i : Instr) (s : State) : Host.Outcome State Fault Refusal :=
  match i with
  | .busReadSave addr => Sys2Proof.Machine.execBusReadSave addr s
  | .busReadUnmapped addr => Sys2Proof.Machine.execBusReadUnmapped addr s
  | .busWriteSave addr v => Sys2Proof.Machine.execBusWriteSave addr v s
  | .busWriteUnmapped addr v => Sys2Proof.Machine.execBusWriteUnmapped addr v s
  | .sramRead off => Sys2Proof.Machine.execSramRead off s
  | .sramWrite off v => Sys2Proof.Machine.execSramWrite off v s
  | .flashReadData off => Sys2Proof.Machine.execFlashReadData off s
  | .flashReadChipId off => Sys2Proof.Machine.execFlashReadChipId off s
  | .unlock1 hi => Sys2Proof.Machine.execUnlock1 hi s
  | .unlock2 hi => Sys2Proof.Machine.execUnlock2 hi s
  | .idEnter hi => Sys2Proof.Machine.execIdEnter hi s
  | .idExit hi => Sys2Proof.Machine.execIdExit hi s
  | .eraseArm hi => Sys2Proof.Machine.execEraseArm hi s
  | .chipErase hi => Sys2Proof.Machine.execChipErase hi s
  | .sectorErase off => Sys2Proof.Machine.execSectorErase off s
  | .programArm hi => Sys2Proof.Machine.execProgramArm hi s
  | .bankArm hi => Sys2Proof.Machine.execBankArm hi s
  | .reject off v => Sys2Proof.Machine.execReject off v s
  | .programData off v => Sys2Proof.Machine.execProgramData off v s
  | .bankSelect hi b => Sys2Proof.Machine.execBankSelect hi b s
  | .bankSelectBadAddr off v => Sys2Proof.Machine.execBankSelectBadAddr off v s
  | .setSaveDevice t seed => Sys2Proof.Machine.execSetSaveDevice t seed s
  | .getData => Sys2Proof.Machine.execGetData s
  | .getType => Sys2Proof.Machine.execGetType s
  | .storageType => Sys2Proof.Machine.execStorageType s
  | .snapshot => Sys2Proof.Machine.execSnapshot s
  | .restore r => Sys2Proof.Machine.execRestore r s

end Sys2Proof.Machine
end

