-- ==== Sys2Proof/Machine/Step.lean ====
section
/-! DEFINITION. One step: one operation of the caller, taken as one atomic transaction (spec/00_scope.md R6). The order of
checks is R228's: a recorded fault first, then the decode, then the instruction's meaning. -/

namespace Sys2Proof.Machine

/-- One step (R6). With a fault recorded there is no step (R225). With nothing presented nothing happens (assumption 4). -/
def step (s : State) : Host.Outcome State Fault Refusal :=
  match s.fault with
  | some f => .fault (.stopped f)
  | none =>
    match s.fetch with
    | none => .next s.idle
    | some r =>
      match decode s.cfg s.dev.view r with
      | .accepted i => exec i s.consume
      | .rejected x => .refused (refusalOf x)

/-- `s` with the command word that a table word stands for presented next, to a flash device in the protocol state that gives
the word its row (assumption 8). -/
def State.withFetchWord (s : State) (nbits w : Nat) : State := s.placeWord (tableWord nbits w)

end Sys2Proof.Machine
end

