-- ==== Sys2Proof/Safety.lean ====
section
/-! DEFINITION. What counts as a state the rules produce (spec/10_state.md R25, R26, R31) and as a safe run, in the terms
claims use. -/

namespace Sys2Proof.Machine

/-- The invariants of R23, R25 and R26, and the canonical form of the buffer: an Sram buffer has 65536 bytes, a flash buffer
65536 or 131072, and the bank register is below the number of banks. -/
abbrev Device.wf (d : Device) : Prop :=
  match d with
  | .sram x => x.buf.wf .sram ∧ x.buf.len = 65536
  | .flash f => f.buf.wf .flash ∧ (f.buf.len = 65536 ∨ f.buf.len = 131072) ∧ f.bank < numBanks f.buf.len

/-- The block meets its invariants (R31). -/
abbrev State.Inv (s : State) : Prop := s.dev.wf

/-- No fatal fault is recorded: the block can take an operation (R225). -/
abbrev State.Live (s : State) : Prop := s.fault = none

/-- A state of a safe run: the invariants hold and no fatal fault is recorded. -/
abbrev State.Safe (s : State) : Prop := s.Inv ∧ s.Live

/-- A host operation that replaces the device (R104, R204); no other operation does. -/
def replacesDevice (i : Instr) : Bool :=
  match i with
  | .setSaveDevice _ _ => true
  | .restore _ => true
  | .busReadSave _ | .busReadUnmapped _ | .busWriteSave _ _ | .busWriteUnmapped _ _ | .sramRead _
  | .sramWrite _ _ | .flashReadData _ | .flashReadChipId _ | .unlock1 _ | .unlock2 _ | .idEnter _
  | .idExit _ | .eraseArm _ | .chipErase _ | .sectorErase _ | .programArm _ | .bankArm _ | .reject _ _
  | .programData _ _ | .bankSelect _ _ | .bankSelectBadAddr _ _ | .getData | .getType | .storageType
  | .snapshot => false

/-- An operation that reads a byte (R30). -/
def isRead (i : Instr) : Bool :=
  match i with
  | .busReadSave _ => true
  | .busReadUnmapped _ => true
  | .sramRead _ => true
  | .flashReadData _ => true
  | .flashReadChipId _ => true
  | .busWriteSave _ _ | .busWriteUnmapped _ _ | .sramWrite _ _ | .unlock1 _ | .unlock2 _ | .idEnter _
  | .idExit _ | .eraseArm _ | .chipErase _ | .sectorErase _ | .programArm _ | .bankArm _ | .reject _ _
  | .programData _ _ | .bankSelect _ _ | .bankSelectBadAddr _ _ | .setSaveDevice _ _ | .getData
  | .getType | .storageType | .snapshot | .restore _ => false

/-- A host operation that only inspects the block (R200 to R203). -/
def isInspection (i : Instr) : Bool :=
  match i with
  | .getData => true
  | .getType => true
  | .storageType => true
  | .snapshot => true
  | .busReadSave _ | .busReadUnmapped _ | .busWriteSave _ _ | .busWriteUnmapped _ _ | .sramRead _
  | .sramWrite _ _ | .flashReadData _ | .flashReadChipId _ | .unlock1 _ | .unlock2 _ | .idEnter _
  | .idExit _ | .eraseArm _ | .chipErase _ | .sectorErase _ | .programArm _ | .bankArm _ | .reject _ _
  | .programData _ _ | .bankSelect _ _ | .bankSelectBadAddr _ _ | .setSaveDevice _ _ | .restore _ => false

/-- The nine rows of a `WFC` state that accept a word (R131 to R139). -/
def isCommandRow (i : Instr) : Bool :=
  match i with
  | .unlock1 _ => true
  | .unlock2 _ => true
  | .idEnter _ => true
  | .idExit _ => true
  | .eraseArm _ => true
  | .chipErase _ => true
  | .sectorErase _ => true
  | .programArm _ => true
  | .bankArm _ => true
  | .busReadSave _ | .busReadUnmapped _ | .busWriteSave _ _ | .busWriteUnmapped _ _ | .sramRead _
  | .sramWrite _ _ | .flashReadData _ | .flashReadChipId _ | .reject _ _ | .programData _ _
  | .bankSelect _ _ | .bankSelectBadAddr _ _ | .setSaveDevice _ _ | .getData | .getType | .storageType
  | .snapshot | .restore _ => false

/-- The byte a device holds at a storage index. -/
def Device.byteAt (d : Device) (a : Nat) : Byte :=
  match d with
  | .sram x => x.buf.read .sram a
  | .flash f => f.buf.read .flash a

/-- The length of a device's buffer. -/
def Device.length (d : Device) : Nat :=
  match d with
  | .sram x => x.buf.len
  | .flash f => f.buf.len

/-- Whether an event of `i` records the operands R221 names: `addr` for an event of the decoder (W3, W4), `off` for an event of a
device, with `v` for a write; the operands of `set_save_device` (assumption 6). The other rows raise no event. -/
def recordsOperands (i : Instr) (d : Diag) : Prop :=
  match i with
  | .busReadSave addr => d.operands = if d.code = .unmappedRead then .busRead addr else .devRead (offOf addr)
  | .busReadUnmapped addr => d.operands = if d.code = .unmappedRead then .busRead addr else .devRead (offOf addr)
  | .busWriteSave addr v => d.operands = if d.code = .unmappedWrite then .busWrite addr v else .devWrite (offOf addr) v
  | .busWriteUnmapped addr v => d.operands = if d.code = .unmappedWrite then .busWrite addr v else .devWrite (offOf addr) v
  | .sramRead off => d.operands = .devRead off
  | .flashReadData off => d.operands = .devRead off
  | .flashReadChipId off => d.operands = .devRead off
  | .sramWrite off v => d.operands = .devWrite off v
  | .setSaveDevice t seed => d.operands = .substitution t seed
  | .unlock1 hi => d.operands = .devWrite (flashOff hi 0x5555#16) 0xAA#8
  | .unlock2 hi => d.operands = .devWrite (flashOff hi 0x2AAA#16) 0x55#8
  | .idEnter hi => d.operands = .devWrite (flashOff hi 0x5555#16) 0x90#8
  | .idExit hi => d.operands = .devWrite (flashOff hi 0x5555#16) 0xF0#8
  | .eraseArm hi => d.operands = .devWrite (flashOff hi 0x5555#16) 0x80#8
  | .chipErase hi => d.operands = .devWrite (flashOff hi 0x5555#16) 0x10#8
  | .sectorErase off => d.operands = .devWrite off 0x30#8
  | .programArm hi => d.operands = .devWrite (flashOff hi 0x5555#16) 0xA0#8
  | .bankArm hi => d.operands = .devWrite (flashOff hi 0x5555#16) 0xB0#8
  | .reject off v => d.operands = .devWrite off v
  | .programData off v => d.operands = .devWrite off v
  | .bankSelect hi b => d.operands = .devWrite (flashOff hi 0#16) b
  | .bankSelectBadAddr off v => d.operands = .devWrite off v
  | .getData | .getType | .storageType | .snapshot | .restore _ => False

/-- `Seeded` (R108) as bytes: the seed if it is present with length `n`, else the fill. -/
abbrev seedByte (seed : Option (List Byte)) (n : Nat) (fill : Byte) (a : Nat) : Byte :=
  match seed with
  | none => fill
  | some bytes => if bytes.length = n then bytes.getD a fill else fill

/-- W9's condition (R108): a seed is present and its length is not `n`. -/
abbrev seedMismatch (seed : Option (List Byte)) (n : Nat) : Bool :=
  match seed with
  | none => false
  | some bytes => bytes.length != n

/-- The records R205 lists: no state of the block could have produced them. -/
abbrev recordInvalid (r : Record) : Prop :=
  match r with
  | .sram buf => buf.length ≠ 65536
  | .flash buf bank _ proto =>
    (buf.length ≠ 65536 ∧ buf.length ≠ 131072) ∨ buf.length / 65536 ≤ bank ∨
    match proto with
    | .wfc step ctx => 2 < step ∨ ctx = .other
    | .writeSingleByte => False
    | .bankChange => False

/-- `SB T+a, v` for a flash address `a` (R89). -/
abbrev State.sb (s : State) (a : FlashAddr) (v : Byte) : Request :=
  .one (.write (windowAddr s.cfg.saveTag (flashOff 0#8 a)) [v])

/-- `CMD c` (R89): the unlock sequence and a command byte. -/
abbrev State.cmd (s : State) (c : Byte) : List Request :=
  [s.sb 0x5555#16 0xAA#8, s.sb 0x2AAA#16 0x55#8, s.sb 0x5555#16 c]

/-- `k` operations of the caller, one after another, stopping at the first fault or refusal (R6, R8). -/
def steps (k : Nat) (s : State) : Answer :=
  match k with
  | 0 => .next s
  | n + 1 =>
    match step s with
    | .next t => steps n t
    | .fault f => .fault f
    | .refused r => .refused r

end Sys2Proof.Machine
end

