-- ==== Sys2Proof/Certificates/Slice0/Obligations.lean ====
section
/-! DEFINITION. The statements for the provers. Each docstring says which sentence of spec/ it formalises. `{ s with … }`
names every field an instruction changes, so such a conclusion is the instruction's whole frame; where bytes are stored,
the buffer after is described by what each index reads as.

A flash row's `hi` (the bits off[23:16]) is free in every statement: that the flash ignores them outside storage accesses is
the spec's own decision D2. What an event records beside its code is decision D7 and assumption 6; where a statement says
`∃ ops`, it says nothing about it. That a
result and diagnostics stand in `out` is assumption 3. -/

open Sys2Proof Sys2Proof.Machine

/-! ### Reset and the invariant -/

/-- R34: "Power-on state: `dev = Sram { buf = 65536 bytes of 0x00 }` and `fault = none`." For every configuration; reset is the
power-on state of one of them (assumption 1). -/
def Obligations.PowerOnIsZeroFilledSram : Prop :=
  (∀ cfg : Config, ∃ d : Sram, (State.powerOn cfg).dev = .sram d ∧ d.buf.len = 65536 ∧
    (∀ a : Nat, d.buf.read .sram a = 0x00#8) ∧ (State.powerOn cfg).fault = none) ∧
  ∃ cfg : Config, State.reset = State.powerOn cfg

/-- The power-on state meets the invariants of R23, R25 and R26, and the buffer's canonical form, and can take an operation. -/
def Obligations.PowerOnMeetsInvariant : Prop := ∀ cfg : Config, (State.powerOn cfg).Safe

/-- R31: a state that breaks R25 or R26 "cannot be reached through the operations of this spec": every step keeps the
invariants, from every state that meets them, whatever the caller presents. -/
def Obligations.StepKeepsInvariant : Prop := ∀ s t : State, s.Inv → step s = .next t → t.Inv

/-- R223's "reachable?" column and R31: from a state that meets the invariants the only fatal fault an instruction enters is
F1, on a flash device in `BCH`, recording some nonzero flash address and some byte, and the diagnostics W8 and W11 are not
emitted. That the recorded pair is the write's own is BadBankAddressEntersF1's and ArmedBankSelectStopsOnOtherAddresses's. -/
def Obligations.OnlyBadBankAddressFaults : Prop :=
  ∀ (i : Instr) (s t : State), s.Inv → exec i s = .next t →
    (∀ f : Fatal, t.fault = some f → ∃ (fl : Flash) (a : FlashAddr) (v : Byte),
      s.dev = .flash fl ∧ fl.proto = .bankChange ∧ a ≠ 0#16 ∧ f = .bankChangeNonZeroAddress a v) ∧
    (∀ d ∈ t.out.diags, d.code ≠ .programOutOfRange ∧ d.code ≠ .flashReadOutOfRange)

/-- R55, R57: in a state that meets the invariants every storage index and every sector lies inside the buffer. -/
def Obligations.StorageIndexesStayInsideTheBuffer : Prop :=
  ∀ (s : State) (f : Flash) (a : FlashAddr), s.Inv → s.dev = .flash f →
    storageIndex f.bank a < f.buf.len ∧ sectorBase f.bank a + 4096 ≤ f.buf.len

/-! ### Decoding -/

/-- R83, R84, R88: decoding the request that carries a well-formed row, in a device state that lists the row, gives the row
back with every operand. The two save-window bus rows, which the device level decodes further, come back from the bus level. -/
def Obligations.EncodedRowDecodesToItself : Prop :=
  ∀ (cfg : Config) (view : DeviceView) (i : Instr), wellFormed cfg i = true →
    (rowApplies view i = true → (∀ a, i ≠ .busReadSave a) → (∀ a v, i ≠ .busWriteSave a v) →
      decode cfg view (encode cfg i) = .accepted i) ∧
    ((∃ a, i = .busReadSave a) ∨ (∃ a v, i = .busWriteSave a v) → decodeBus cfg (encode cfg i) = .accepted i)

/-- R83, R84: what the decoder accepts, it accepts as a well-formed row that the device state lists, and that row's encoding
is the request: no bit is dropped. -/
def Obligations.DecodedRequestEncodesBack : Prop :=
  ∀ (cfg : Config) (view : DeviceView) (r : Request) (i : Instr), decode cfg view r = .accepted i →
    encode cfg i = r ∧ wellFormed cfg i = true ∧ rowApplies view i = true

/-- R83: "a row applies when `CW & mask = match` and `proto` is one of the states listed. The rows of one state are mutually
exclusive"; the words no row takes are REJECT's in a `WFC` state and BANK_SELECT_BADADDR's in `BCH`. -/
def Obligations.FlashDecodeFollowsMatchAndMask : Prop :=
  (∀ row ∈ commandTable, ∀ p ∈ row.states, ∀ (off : Offset) (v : Byte),
    row.takes p (commandWord off v) = true ↔ (decodeFlashWrite p off v).mnemonic = row.mnemonic) ∧
  (∀ row ∈ commandTable, ∀ row' ∈ commandTable, ∀ (p : Proto) (cw : CommandWord),
    row.takes p cw = true → row'.takes p cw = true → row = row') ∧
  (∀ (p : Proto) (off : Offset) (v : Byte), (∀ row ∈ commandTable, row.takes p (commandWord off v) = false) ↔
    (decodeFlashWrite p off v = .reject off v ∨ decodeFlashWrite p off v = .bankSelectBadAddr off v))

/-- A few words written out from R83 and the spec's test vectors decode to their rows. -/
def Obligations.SpecWordsDecodeToTheirRows : Prop :=
  decode ⟨0x0E#8⟩ (.flash .data (.wfc .zero .none)) (.one (.write 0x0E005555#32 [0xAA#8])) = .accepted (.unlock1 0x00#8) ∧
  decode ⟨0x0E#8⟩ (.flash .data (.wfc .zero .none)) (.one (.write 0x0E015555#32 [0xAA#8])) = .accepted (.unlock1 0x01#8) ∧
  decode ⟨0x0E#8⟩ (.flash .data (.wfc .one .none)) (.one (.write 0x0E002AAA#32 [0x55#8])) = .accepted (.unlock2 0x00#8) ∧
  decode ⟨0x0E#8⟩ (.flash .data (.wfc .two .erase)) (.one (.write 0x0E003ABC#32 [0x30#8])) =
    .accepted (.sectorErase 0x003ABC#24) ∧
  decode ⟨0x0E#8⟩ (.flash .data .bankChange) (.one (.write 0x0E000001#32 [0x01#8])) =
    .accepted (.bankSelectBadAddr 0x000001#24 0x01#8) ∧
  decode ⟨0x0E#8⟩ .sram (.one (.write 0x0E000010#32 [0x5A#8])) = .accepted (.sramWrite 0x000010#24 0x5A#8) ∧
  decode ⟨0x0E#8⟩ .sram (.one (.read 0x0F000010#32 1)) = .accepted (.busReadUnmapped 0x0F000010#32)

/-- R58, R68, R231: an access that is not exactly one byte wide is refused (X2), and so are operations that overlap (X1).
Decisions D6 and D15. That an overlap is X1 even where one of its operations is refused by itself is the model's choice,
assumption 25. -/
def Obligations.OverlapAndWideAccessAreRefused : Prop :=
  ∀ (s : State) (rest : List Request), s.Live →
    (∀ (addr : BusAddr) (n : Nat), n ≠ 1 → s.pending = .one (.read addr n) :: rest → step s = .refused .wideAccess) ∧
    (∀ (addr : BusAddr) (data : List Byte), data.length ≠ 1 → s.pending = .one (.write addr data) :: rest →
      step s = .refused .wideAccess) ∧
    (∀ o₁ o₂ : Operation, s.pending = .overlapping o₁ o₂ :: rest → step s = .refused .overlappingOperations)

/-! ### The step -/

/-- R6: a step takes the next request, decodes it, and is the meaning of the instruction it decodes to, at the state with that
request taken. The queue of requests is the model's own (assumption 2). -/
def Obligations.StepRunsTheDecodedInstruction : Prop :=
  ∀ (s : State) (r : Request) (rest : List Request) (i : Instr), s.Live → s.pending = r :: rest →
    decode s.cfg s.dev.view r = .accepted i → step s = exec i { s with pending := rest }

/-- R225, R226: "After a fault, no operation of the block has a step." Decision D8. -/
def Obligations.FaultedBlockHasNoStep : Prop :=
  ∀ (s : State) (f : Fatal), s.fault = some f →
    step s = .fault (.stopped f) ∧ ∀ i : Instr, exec i s = .fault (.stopped f)

/-- R33, R8: no operation changes the configuration; a step takes exactly one request off the queue (assumption 2). -/
def Obligations.StepKeepsConfiguration : Prop :=
  ∀ s t : State, step s = .next t → t.cfg = s.cfg ∧ t.pending = s.pending.tail

/-- R84, R100, R101: a save-window access is the device row it decodes to, in every device state. -/
def Obligations.WindowAccessIsItsDeviceRow : Prop :=
  (∀ (s : State) (addr : BusAddr), tagOf addr = s.cfg.saveTag →
    exec (.busReadSave addr) s = exec (refine s.dev.view (.busReadSave addr)) s) ∧
  (∀ (s : State) (addr : BusAddr) (v : Byte), tagOf addr = s.cfg.saveTag →
    exec (.busWriteSave addr v) s = exec (refine s.dev.view (.busWriteSave addr v)) s)

/-! ### The bus -/

/-- R100, `read_byte`: inside the save window the device's read at `addr[23:0]`; outside 0xFF with W3. Nothing else changes. -/
def Obligations.BusReadForwardsOrAnswersFF : Prop :=
  ∀ (s : State) (addr : BusAddr), s.Live →
    (tagOf addr = s.cfg.saveTag → exec (.busReadSave addr) s =
      .next { s with out := ⟨some (.byte (s.dev.read (offOf addr)).byte), (s.dev.read (offOf addr)).diags⟩ }) ∧
    (tagOf addr ≠ s.cfg.saveTag → ∃ ops : DiagOperands, exec (.busReadUnmapped addr) s =
      .next { s with out := ⟨some (.byte 0xFF#8), [⟨.unmappedRead, ops⟩]⟩ })

/-- R101, `write_byte`: inside the save window the device's write at `addr[23:0]`; outside no state change, with W4. What
the event records is decision D7 and assumption 6. That fault entry is a next state that puts out nothing is assumption 10. -/
def Obligations.BusWriteForwardsOrDoesNothing : Prop :=
  ∀ (s : State) (addr : BusAddr) (v : Byte), s.Live →
    (tagOf addr = s.cfg.saveTag → ∃ t, exec (.busWriteSave addr v) s = .next t ∧
      match s.dev.write (offOf addr) v with
      | .done d ds => t = { s with dev := d, out := ⟨none, ds⟩ }
      | .raised f => t = { s with fault := some f, out := ⟨none, []⟩ }) ∧
    (tagOf addr ≠ s.cfg.saveTag → exec (.busWriteUnmapped addr v) s =
      .next { s with out := ⟨none, [⟨.unmappedWrite, .busWrite addr v⟩]⟩ })

/-! ### The Sram device -/

/-- R120: "if off < 65536: return buf[off], else: diag(W1); return 0xFF". State written: none. -/
def Obligations.SramReadReturnsByteOrSentinel : Prop :=
  ∀ (s : State) (d : Sram) (off : Offset), s.Live → s.dev = .sram d → ∃ ops : DiagOperands,
    exec (.sramRead off) s = .next { s with out :=
      if off.toNat < 65536 then ⟨some (.byte (d.buf.read .sram off.toNat)), []⟩
      else ⟨some (.byte 0xFF#8), [⟨.sramReadOutOfRange, ops⟩]⟩ }

/-- R121: "if off < 65536: buf[off] <- v, else: diag(W2)". Every other byte is unchanged. -/
def Obligations.SramWriteStoresByteOrDoesNothing : Prop :=
  ∀ (s : State) (d : Sram) (off : Offset) (v : Byte), s.Live → s.dev = .sram d →
    (off.toNat < 65536 → ∃ m : Memory,
      exec (.sramWrite off v) s = .next { s with dev := .sram { buf := m }, out := ⟨none, []⟩ } ∧
      m.len = d.buf.len ∧ ∀ a : Nat, m.read .sram a = if a = off.toNat then v else d.buf.read .sram a) ∧
    (65536 ≤ off.toNat → ∃ ops : DiagOperands, exec (.sramWrite off v) s =
      .next { s with out := ⟨none, [⟨.sramWriteOutOfRange, ops⟩]⟩ })

/-- R253: before a flash is installed, "flash command writes then store bytes into SRAM". The rows of a flash word on an Sram
device are data writes (assumption 5). -/
def Obligations.FlashWordsAreDataOnSram : Prop :=
  ∀ (i : Instr) (off : Offset) (v : Byte) (s : State) (d : Sram), i.flashWord = some (off, v) → s.dev = .sram d →
    exec i s = exec (.sramWrite off v) s

/-! ### Flash reads -/

/-- R181, R182: in data mode the byte at `bank * 65536 + a16`, or 0xFF with W11 beyond the buffer. -/
def Obligations.FlashDataReadReturnsStoredByte : Prop :=
  ∀ (s : State) (f : Flash) (off : Offset), s.Live → s.dev = .flash f → f.mode = .data →
    ∃ ops : DiagOperands, exec (.flashReadData off) s = .next { s with out :=
      if f.buf.len ≤ f.bank * 65536 + (a16Of off).toNat then
        ⟨some (.byte 0xFF#8), [⟨.flashReadOutOfRange, ops⟩]⟩
      else ⟨some (.byte (f.buf.read .flash (f.bank * 65536 + (a16Of off).toNat))), []⟩ }

/-- R183, R184: in chip-ID mode the identification pair at flash addresses 0 and 1, whatever the bank, and 0x00 elsewhere. -/
def Obligations.ChipIdReadReturnsIdentification : Prop :=
  ∀ (s : State) (f : Flash) (off : Offset), s.Live → s.dev = .flash f → f.mode = .chipId →
    (f.buf.len = 65536 → exec (.flashReadChipId off) s = .next { s with out :=
      ⟨some (.byte (if a16Of off = 0#16 then 0xBF#8 else if a16Of off = 1#16 then 0xD4#8 else 0x00#8)), []⟩ }) ∧
    (f.buf.len = 131072 → exec (.flashReadChipId off) s = .next { s with out :=
      ⟨some (.byte (if a16Of off = 0#16 then 0x62#8 else if a16Of off = 1#16 then 0x13#8 else 0x00#8)), []⟩ }) ∧
    (a16Of off ≠ 0#16 → a16Of off ≠ 1#16 → exec (.flashReadChipId off) s =
      .next { s with out := ⟨some (.byte 0x00#8), []⟩ })

/-- R30: "A read operation, whether `read_byte` or a device read, changes no state: not `buf`, `bank`, `mode`, `proto` or `dev`.
It may emit diagnostics." Every read answers with one byte. -/
def Obligations.ReadsChangeNoState : Prop :=
  ∀ (i : Instr) (s : State), isRead i = true → s.Live →
    ∃ (b : Byte) (ds : List Diag), exec i s = .next { s with out := ⟨some (.byte b), ds⟩ }

/-- R29: "No read returns it, and no read depends on it": two flash states that differ only in `proto` answer every read alike. -/
def Obligations.ReadsDoNotSeeTheProtocolState : Prop :=
  ∀ (i : Instr) (s t : State) (f : Flash) (p : Proto), isRead i = true → s.dev = .flash f → exec i s = .next t →
    exec i { s with dev := .flash { f with proto := p } } = .next { t with dev := .flash { f with proto := p } }

/-- R54: "Bits `off[23:16]` are ignored": offsets with the same low 16 bits read alike, and write alike but for the operands
that an event records. Decision D2. -/
def Obligations.FlashIgnoresOffsetHighBits : Prop :=
  ∀ (s : State) (f : Flash) (off off' : Offset), s.dev = .flash f → a16Of off = a16Of off' →
    (s.dev.read off).byte = (s.dev.read off').byte ∧
    ∀ (v : Byte) (t : State), exec (.busWriteSave (windowAddr s.cfg.saveTag off) v) s = .next t →
      ∃ t' : State, exec (.busWriteSave (windowAddr s.cfg.saveTag off') v) s = .next t' ∧
        t'.dev = t.dev ∧ t'.fault = t.fault ∧ t'.out.diags.map (·.code) = t.out.diags.map (·.code)

/-! ### Flash commands -/

/-- R131, R132: `5555/AA` advances `WFC(0,c)` to `WFC(1,c)` and `2AAA/55` advances `WFC(1,c)` to `WFC(2,c)`, keeping the context.
That the context `Erase` is kept is the spec's own decision D3. -/
def Obligations.UnlockAdvancesAndKeepsContext : Prop :=
  ∀ (s : State) (f : Flash) (c : Context) (hi : BitVec 8), s.Live → s.dev = .flash f →
    (f.proto = .wfc .zero c → exec (.unlock1 hi) s =
      .next { s with dev := .flash { f with proto := .wfc .one c }, out := ⟨none, []⟩ }) ∧
    (f.proto = .wfc .one c → exec (.unlock2 hi) s =
      .next { s with dev := .flash { f with proto := .wfc .two c }, out := ⟨none, []⟩ })

/-- R133, R134: in `WFC(2,None)`, `5555/90` enters chip-ID mode and `5555/F0` leaves it, with W6 when it was not entered; both
return to `WFC(0,None)` and leave buffer and bank alone. What the event records is decision D7 and assumption 6. -/
def Obligations.ChipIdCommandsSwitchTheReadMode : Prop :=
  ∀ (s : State) (f : Flash) (hi : BitVec 8), s.Live → s.dev = .flash f → f.proto = .wfc .two .none →
    exec (.idEnter hi) s =
      .next { s with dev := .flash { f with mode := .chipId, proto := .wfc .zero .none }, out := ⟨none, []⟩ } ∧
    exec (.idExit hi) s =
      .next { s with
        dev := .flash { f with mode := .data, proto := .wfc .zero .none }
        out := ⟨none, if f.mode = .chipId then []
          else [⟨.chipIdExitNotInChipId, .devWrite (flashOff hi 0x5555#16) 0xF0#8⟩]⟩ }

/-- R135, R138, R139: in `WFC(2,None)`, `5555/80` arms an erase, `5555/A0` a program and `5555/B0` a bank select; nothing else
changes. -/
def Obligations.ArmCommandsSetTheProtocolState : Prop :=
  ∀ (s : State) (f : Flash) (hi : BitVec 8), s.Live → s.dev = .flash f → f.proto = .wfc .two .none →
    exec (.eraseArm hi) s =
      .next { s with dev := .flash { f with proto := .wfc .zero .erase }, out := ⟨none, []⟩ } ∧
    exec (.programArm hi) s =
      .next { s with dev := .flash { f with proto := .writeSingleByte }, out := ⟨none, []⟩ } ∧
    exec (.bankArm hi) s =
      .next { s with dev := .flash { f with proto := .bankChange }, out := ⟨none, []⟩ }

/-- R136: in `WFC(2,Erase)`, `5555/10` sets every byte of the buffer to 0xFF, whatever the bank, and returns to `WFC(0,None)`. -/
def Obligations.ChipEraseFillsTheWholeBuffer : Prop :=
  ∀ (s : State) (f : Flash) (hi : BitVec 8), s.Live → s.dev = .flash f → f.proto = .wfc .two .erase →
    ∃ m : Memory,
      exec (.chipErase hi) s =
        .next { s with dev := .flash { f with buf := m, proto := .wfc .zero .none }, out := ⟨none, []⟩ } ∧
      m.len = f.buf.len ∧ ∀ a : Nat, m.read .flash a = if a < f.buf.len then 0xFF#8 else f.buf.read .flash a

/-- R137: in `WFC(2,Erase)`, `ssss/30` sets the 4096 bytes of sector `a16 >> 12` of the current bank to 0xFF, "leaves all other
bytes unchanged", and returns to `WFC(0,None)`. A sector beyond the buffer raises F3 (decision D11). That fault entry is a
next state that puts out nothing is assumption 10. -/
def Obligations.SectorEraseFillsOneSector : Prop :=
  ∀ (s : State) (f : Flash) (off : Offset), s.Live → s.dev = .flash f → f.proto = .wfc .two .erase →
    let base := f.bank * 65536 + (a16Of off).toNat / 4096 * 4096
    (base + 4096 ≤ f.buf.len → ∃ m : Memory,
      exec (.sectorErase off) s =
        .next { s with dev := .flash { f with buf := m, proto := .wfc .zero .none }, out := ⟨none, []⟩ } ∧
      m.len = f.buf.len ∧
      ∀ a : Nat, m.read .flash a = if base ≤ a ∧ a < base + 4096 then 0xFF#8 else f.buf.read .flash a) ∧
    (f.buf.len < base + 4096 →
      exec (.sectorErase off) s = .next { s with fault := some .sectorEraseOutOfRange, out := ⟨none, []⟩ })

/-- R140: a write in a `WFC` state that matches none of R131 to R139 emits W5, and "nothing else happens". What the event
records is decision D7 and assumption 6. -/
def Obligations.RejectedWriteChangesNothing : Prop :=
  ∀ (s : State) (f : Flash) (st : UnlockStep) (c : Context) (off : Offset) (v : Byte),
    s.Live → s.dev = .flash f → f.proto = .wfc st c →
    ¬(st = .zero ∧ a16Of off = 0x5555#16 ∧ v = 0xAA#8) →
    ¬(st = .one ∧ a16Of off = 0x2AAA#16 ∧ v = 0x55#8) →
    ¬(st = .two ∧ c = .none ∧ a16Of off = 0x5555#16 ∧ (v = 0x90#8 ∨ v = 0xF0#8 ∨ v = 0x80#8 ∨ v = 0xA0#8 ∨ v = 0xB0#8)) →
    ¬(st = .two ∧ c = .erase ∧ a16Of off = 0x5555#16 ∧ v = 0x10#8) →
    ¬(st = .two ∧ c = .erase ∧ v = 0x30#8) →
    exec (.reject off v) s = .next { s with out := ⟨none, [⟨.rejectedCommand, .devWrite off v⟩]⟩ }

/-- R87: a command word or an unlock word in a `WFC` state that does not accept it is rejected under R86: W5, and the step and
the context stay. That a row executed in a state that does not list it is the same write there is assumption 5. What the
event records is decision D7 and assumption 6. -/
def Obligations.CommandsOutsideTheirStateAreRejected : Prop :=
  ∀ (i : Instr) (off : Offset) (v : Byte) (s : State) (f : Flash) (st : UnlockStep) (c : Context),
    isCommandRow i = true → i.flashWord = some (off, v) → s.Live → s.dev = .flash f → f.proto = .wfc st c →
    rowApplies s.dev.view i = false →
    exec i s = .next { s with out := ⟨none, [⟨.rejectedCommand, .devWrite off v⟩]⟩ }

/-- R262, R135: the context `Erase` stays, with the buffer as it is, until a chip erase or a sector erase completes; only
substitution and restore leave it otherwise. -/
def Obligations.EraseContextEndsOnlyWithAnErase : Prop :=
  ∀ (i : Instr) (s t : State) (f : Flash) (st : UnlockStep),
    replacesDevice i = false → s.dev = .flash f → f.proto = .wfc st .erase → exec i s = .next t →
    ∃ g : Flash, t.dev = .flash g ∧ g.bank = f.bank ∧ g.mode = f.mode ∧
      ((∃ st', g.proto = .wfc st' .erase ∧ g.buf = f.buf) ∨
       (st = .two ∧ g.proto = .wfc .zero .none ∧
         ((∀ a, a < f.buf.len → g.buf.read .flash a = 0xFF#8) ∨
          ∃ sec, sec < 16 ∧ ∀ a, f.bank * 65536 + sec * 4096 ≤ a → a < f.bank * 65536 + sec * 4096 + 4096 →
            g.buf.read .flash a = 0xFF#8)))

/-! ### Flash data phases -/

/-- R160, R161: in `WSB` the byte at `bank * 65536 + a16` becomes its AND with `v`, every other byte is unchanged, and the device
returns to `WFC(0,None)`; beyond the buffer W8 is emitted and the device stays armed. -/
def Obligations.ProgramAndsOneByte : Prop :=
  ∀ (s : State) (f : Flash) (off : Offset) (v : Byte), s.Live → s.dev = .flash f → f.proto = .writeSingleByte →
    let idx := f.bank * 65536 + (a16Of off).toNat
    (idx < f.buf.len → ∃ m : Memory,
      exec (.programData off v) s =
        .next { s with dev := .flash { f with buf := m, proto := .wfc .zero .none }, out := ⟨none, []⟩ } ∧
      m.len = f.buf.len ∧
      ∀ a : Nat, m.read .flash a = if a = idx then f.buf.read .flash idx &&& v else f.buf.read .flash a) ∧
    (f.buf.len ≤ idx → ∃ ops : DiagOperands, exec (.programData off v) s =
      .next { s with out := ⟨none, [⟨.programOutOfRange, ops⟩]⟩ })

/-- R163, R164: in `BCH`, a write at flash address 0 sets the bank if the value, compared whole, is below the number of banks;
else W7 is emitted and the bank stays. Either way the device returns to `WFC(0,None)`. What the event records is decision D7
and assumption 6. -/
def Obligations.BankSelectSetsALegalBank : Prop :=
  ∀ (s : State) (f : Flash) (hi : BitVec 8) (b : Byte), s.Live → s.dev = .flash f → f.proto = .bankChange →
    (b.toNat < f.buf.len / 65536 → exec (.bankSelect hi b) s =
      .next { s with dev := .flash { f with bank := b.toNat, proto := .wfc .zero .none }, out := ⟨none, []⟩ }) ∧
    (f.buf.len / 65536 ≤ b.toNat → exec (.bankSelect hi b) s =
      .next { s with
        dev := .flash { f with proto := .wfc .zero .none }
        out := ⟨none, [⟨.bankOutOfRange, .devWrite (flashOff hi 0#16) b⟩]⟩ })

/-- R162, R223, R224: in `BCH`, a write at a nonzero flash address enters the fatal fault F1, recording `a16` and `v`, before any
test of the value (decision D19), and changes nothing else (decision D8). That fault entry is a next state that puts out
nothing is assumption 10. -/
def Obligations.BadBankAddressEntersF1 : Prop :=
  ∀ (s : State) (f : Flash) (off : Offset) (v : Byte), s.Live → s.dev = .flash f → f.proto = .bankChange →
    a16Of off ≠ 0#16 → exec (.bankSelectBadAddr off v) s =
      .next { s with fault := some (.bankChangeNonZeroAddress (a16Of off) v), out := ⟨none, []⟩ }

/-- R261: after `5555/A0` every flash word, whatever it looks like, is programmed at its own address. That a row executed in
`WSB`, which only PROGRAM_DATA lists, is the same write there is assumption 5. -/
def Obligations.ArmedProgramCapturesEveryWord : Prop :=
  ∀ (i : Instr) (off : Offset) (v : Byte) (s : State) (f : Flash),
    i.flashWord = some (off, v) → s.dev = .flash f → f.proto = .writeSingleByte → exec i s = exec (.programData off v) s

/-- R263: after `5555/B0` every flash word at a nonzero flash address, an unlock word too, stops the block with F1. That a row
executed in `BCH`, which only the two bank-select rows list, is the same write there is assumption 5. Decisions D2 and D8.
That fault entry is a next state that puts out nothing is assumption 10. -/
def Obligations.ArmedBankSelectStopsOnOtherAddresses : Prop :=
  ∀ (i : Instr) (off : Offset) (v : Byte) (s : State) (f : Flash),
    i.flashWord = some (off, v) → s.Live → s.dev = .flash f → f.proto = .bankChange → a16Of off ≠ 0#16 →
    exec i s = .next { s with fault := some (.bankChangeNonZeroAddress (a16Of off) v), out := ⟨none, []⟩ }

/-! ### Rules over all instructions -/

/-- R25, R160, R265: an operation that does not replace the device keeps the buffer's length, and sets no bit of a flash byte
unless it is an erase in `WFC(2,Erase)`; it changes the buffer in no other state than `WSB` and `WFC(2,Erase)` (R229: the
unlock sequence is the only guard on writes to flash). -/
def Obligations.FlashBitsAreSetOnlyByErase : Prop :=
  ∀ (i : Instr) (s t : State) (f : Flash), replacesDevice i = false → s.dev = .flash f → exec i s = .next t →
    ∃ g : Flash, t.dev = .flash g ∧ g.buf.len = f.buf.len ∧
      (f.proto ≠ .wfc .two .erase → ∀ a : Nat, g.buf.read .flash a &&& f.buf.read .flash a = g.buf.read .flash a) ∧
      (f.proto ≠ .wfc .two .erase → f.proto ≠ .writeSingleByte → g.buf = f.buf)

/-- R26, R27, R28: the bank register is written by the bank-select data phase only, the read mode by `5555/90` and `5555/F0` in
`WFC(2,None)` only, and no read or inspection changes any register. -/
def Obligations.FlashRegistersChangeOnlyByTheirCommands : Prop :=
  ∀ (i : Instr) (s t : State) (f : Flash), replacesDevice i = false → s.dev = .flash f → exec i s = .next t →
    ∃ g : Flash, t.dev = .flash g ∧
      (g.bank ≠ f.bank → f.proto = .bankChange ∧ g.proto = .wfc .zero .none) ∧
      (g.mode ≠ f.mode → f.proto = .wfc .two .none ∧ g.proto = .wfc .zero .none) ∧
      (isRead i = true ∨ isInspection i = true → g = f)

/-- R222: "No rule reads an earlier diagnostic": what an instruction does not depend on what was put out before. -/
def Obligations.EarlierOutputIsNeverRead : Prop :=
  ∀ (i : Instr) (s : State) (o : Output), exec i { s with out := o } = exec i s

/-- R224: fault entry "sets `fault <- some Fn` and makes no other change in that step", whichever instruction raises it. The step
puts out nothing (assumption 10). -/
def Obligations.FaultEntryIsPrecise : Prop :=
  ∀ (i : Instr) (s t : State) (f : Fatal), exec i s = .next t → t.fault = some f →
    s.fault = none ∧ t = { s with fault := some f, out := ⟨none, []⟩ }

/-- R228: an operation other than `set_save_device` "emits at most one diagnostic, and `set_save_device` emits at most two". -/
def Obligations.DiagnosticsPerOperationAreBounded : Prop :=
  ∀ (i : Instr) (s t : State), exec i s = .next t →
    t.out.diags.length ≤ 2 ∧ ((∀ ty seed, i ≠ .setSaveDevice ty seed) → t.out.diags.length ≤ 1)

/-- R221: "Each event records its code and the operands of the operation that raised it". Which operands is decision D7 and
assumption 6: the bus address for an event of the decoder, the offset for an event of a device, with the byte for a write. -/
def Obligations.EventsRecordTheirOperands : Prop :=
  ∀ (i : Instr) (s t : State), exec i s = .next t → ∀ d ∈ t.out.diags, recordsOperands i d

/-! ### Device substitution and the host interface -/

/-- R104, R105, R107, R108, R109: every type but the two flash types installs an Sram device of 65536 bytes, the seed's if its
length is 65536 and else 0x00; W10 for EEPROM and unrecognised types, then W9 for a mismatched seed (decisions D10, D20); the
old device is put out (decision D23). That W9 and W10 record the type and the seed is the model's choice, assumption 6
(decision D7). -/
def Obligations.SubstitutionBuildsSram : Prop :=
  ∀ (s : State) (t : SaveTypeInput) (seed : Option (List Byte)), s.Live →
    t ≠ .named .flash64K → t ≠ .named .flash128K →
    ∃ m : Memory,
      exec (.setSaveDevice t seed) s = .next { s with
        dev := .sram { buf := m }
        out := ⟨some (.oldDevice s.dev),
          (if t = .named .none ∨ t = .named .sram then [] else [⟨.unsupportedSaveType, .substitution t seed⟩]) ++
          (if seedMismatch seed 65536 then [⟨.seedLengthMismatch, .substitution t seed⟩] else [])⟩ } ∧
      m.len = 65536 ∧ ∀ a : Nat, m.read .sram a = seedByte seed 65536 0x00#8 a

/-- R104, R106, R108, R109: the flash types install a flash device of 65536 or 131072 bytes, the seed's if its length is the size
and else 0xFF, with bank 0, data mode and `WFC(0,None)` (decision D4); W9 for a mismatched seed (decision D20); the old device
is put out (decision D23). That W9 records the type and the seed is the model's choice, assumption 6 (decision D7). -/
def Obligations.SubstitutionBuildsFlash : Prop :=
  ∀ (s : State) (t : SaveTypeInput) (n : Nat) (seed : Option (List Byte)), s.Live →
    (t = .named .flash64K ∧ n = 65536) ∨ (t = .named .flash128K ∧ n = 131072) →
    ∃ m : Memory,
      exec (.setSaveDevice t seed) s = .next { s with
        dev := .flash { buf := m, bank := 0, mode := .data, proto := .wfc .zero .none }
        out := ⟨some (.oldDevice s.dev),
          if seedMismatch seed n then [⟨.seedLengthMismatch, .substitution t seed⟩] else []⟩ } ∧
      m.len = n ∧ ∀ a : Nat, m.read .flash a = seedByte seed n 0xFF#8 a

/-- R200: `get_data` answers the whole buffer, element `i` being `buf[i]`, and writes no state. -/
def Obligations.GetDataAnswersTheWholeBuffer : Prop :=
  ∀ s : State, s.Live → ∃ view : List Byte,
    exec .getData s = .next { s with out := ⟨some (.bytes view), []⟩ } ∧ view.length = s.dev.length ∧
    ∀ (i : Nat) (h : i < view.length), view[i] = s.dev.byteAt i

/-- R201, R202: type and label derive from the device kind and the buffer length; a flash of any other length raises F2.
That fault entry is a next state that puts out nothing is assumption 10. -/
def Obligations.TypeAndLabelDeriveFromTheLength : Prop :=
  ∀ s : State, s.Live →
    (∀ d, s.dev = .sram d →
      exec .getType s = .next { s with out := ⟨some (.saveType .sram), []⟩ } ∧
      exec .storageType s = .next { s with out := ⟨some (.label "SRAM (64K)"), []⟩ }) ∧
    (∀ f, s.dev = .flash f → f.buf.len = 65536 →
      exec .getType s = .next { s with out := ⟨some (.saveType .flash64K), []⟩ } ∧
      exec .storageType s = .next { s with out := ⟨some (.label "FLASH (512K)"), []⟩ }) ∧
    (∀ f, s.dev = .flash f → f.buf.len = 131072 →
      exec .getType s = .next { s with out := ⟨some (.saveType .flash128K), []⟩ } ∧
      exec .storageType s = .next { s with out := ⟨some (.label "FLASH (1M)"), []⟩ }) ∧
    (∀ f, s.dev = .flash f → f.buf.len ≠ 65536 → f.buf.len ≠ 131072 →
      exec .getType s = .next { s with fault := some .flashLengthInvariant, out := ⟨none, []⟩ } ∧
      exec .storageType s = .next { s with fault := some .flashLengthInvariant, out := ⟨none, []⟩ })

/-- R206, every row of its table: the device each type builds, its length, and what `get_type` and `storage_type` then answer. -/
def Obligations.IdentificationAfterSubstitution : Prop :=
  ∀ (s : State) (t : SaveTypeInput) (seed : Option (List Byte)), s.Live → ∃ u : State,
    exec (.setSaveDevice t seed) s = .next u ∧
    (t = .named .flash64K → (∃ f, u.dev = .flash f ∧ f.buf.len = 65536) ∧
      exec .getType u = .next { u with out := ⟨some (.saveType .flash64K), []⟩ } ∧
      exec .storageType u = .next { u with out := ⟨some (.label "FLASH (512K)"), []⟩ }) ∧
    (t = .named .flash128K → (∃ f, u.dev = .flash f ∧ f.buf.len = 131072) ∧
      exec .getType u = .next { u with out := ⟨some (.saveType .flash128K), []⟩ } ∧
      exec .storageType u = .next { u with out := ⟨some (.label "FLASH (1M)"), []⟩ }) ∧
    (t ≠ .named .flash64K → t ≠ .named .flash128K → (∃ d, u.dev = .sram d ∧ d.buf.len = 65536) ∧
      exec .getType u = .next { u with out := ⟨some (.saveType .sram), []⟩ } ∧
      exec .storageType u = .next { u with out := ⟨some (.label "SRAM (64K)"), []⟩ })

/-- R22: substitution "replaces the whole `dev` value", and the new device "shares no state with the old one": two blocks, whatever
their devices, hold the same device after the same substitution. -/
def Obligations.SubstitutionSharesNoState : Prop :=
  ∀ (s u : State) (t : SaveTypeInput) (seed : Option (List Byte)), s.Live → u.Live → ∃ s' u' : State,
    exec (.setSaveDevice t seed) s = .next s' ∧ exec (.setSaveDevice t seed) u = .next u' ∧ s'.dev = u'.dev

/-- R203: a snapshot holds the buffer of an Sram device, and the buffer, bank, read mode and full protocol state of a flash
device. Decision D12; the record's form is assumption 12. -/
def Obligations.SnapshotHoldsTheDevice : Prop :=
  ∀ s : State, s.Live →
    (∀ d, s.dev = .sram d → exec .snapshot s = .next { s with out := ⟨some (.snapshot (.sram (d.buf.bytes .sram))), []⟩ }) ∧
    (∀ f, s.dev = .flash f → ∃ p : RecordProto,
      exec .snapshot s = .next { s with out := ⟨some (.snapshot (.flash (f.buf.bytes .flash) f.bank f.mode p)), []⟩ } ∧
      protoOfRecord p = some f.proto)

/-- R205: restore refuses exactly the records it lists, X3. Decision D12. -/
def Obligations.RestoreRefusesInvalidRecords : Prop :=
  ∀ (s : State) (r : Record), s.Live → (exec (.restore r) s = .refused .invalidSnapshot ↔ recordInvalid r)

/-- R204: restoring a valid record replaces the device with the recorded one and emits no diagnostic. The old device is put out
(assumption 11). -/
def Obligations.RestoreInstallsTheRecordedDevice : Prop :=
  ∀ (s : State) (r : Record), s.Live → ¬recordInvalid r → ∃ d : Device,
    exec (.restore r) s = .next { s with dev := d, out := ⟨some (.oldDevice s.dev), []⟩ } ∧
    match r with
    | .sram buf => d.bytes = buf ∧ ∃ x, d = .sram x
    | .flash buf bank mode proto => d.bytes = buf ∧ ∃ g, d = .flash g ∧ g.bank = bank ∧ g.mode = mode ∧
        protoOfRecord proto = some g.proto

/-- R204: "Round-trip through this serialized form must reproduce byte-identical behavior": restoring a snapshot, on any block,
installs the very device that was snapshotted. That restore puts out the old device is assumption 11. -/
def Obligations.SnapshotThenRestoreIsTheSameDevice : Prop :=
  ∀ s u : State, s.Safe → u.Live → ∃ (t : State) (r : Record),
    exec .snapshot s = .next t ∧ t.dev = s.dev ∧ t.out.result = some (.snapshot r) ∧
    exec (.restore r) u = .next { u with dev := s.dev, out := ⟨some (.oldDevice u.dev), []⟩ }

/-! ### Command sequences -/

/-- §8 of the source, in R160: "after the full unlock sequence (0x5555/0xAA, 0x2AAA/0x55, 0x5555/0xA0) followed by write(b, v),
read(b) equals (previous value at b) AND v." From `WFC(0,None)` in data mode (90_conflicts.md C11), and every other byte and
register is as before. -/
def Obligations.ProgramSequenceAndsTheByte : Prop :=
  ∀ (s : State) (f : Flash) (a : FlashAddr) (v : Byte) (rest : List Request),
    s.Safe → s.dev = .flash f → f.mode = .data → f.proto = .wfc .zero .none →
    s.pending = s.cmd 0xA0#8 ++ s.sb a v ::
      .one (.read (windowAddr s.cfg.saveTag (flashOff 0#8 a)) 1) :: rest →
    ∃ m : Memory,
      steps 5 s = .next { s with
        dev := .flash { f with buf := m }
        pending := rest
        out := ⟨some (.byte (f.buf.read .flash (storageIndex f.bank a) &&& v)), []⟩ } ∧
      m.len = f.buf.len ∧
      ∀ x : Nat, m.read .flash x =
        if x = storageIndex f.bank a then f.buf.read .flash (storageIndex f.bank a) &&& v else f.buf.read .flash x

/-- §8 of the source with the second unlock of 90_conflicts.md C4 (R89 `CHIP_ERASE`): the sequence sets every byte to 0xFF and
leaves bank and read mode alone. That the second unlock keeps the context `Erase` is decision D3 (assumption 14). -/
def Obligations.ChipEraseSequenceErasesEveryByte : Prop :=
  ∀ (s : State) (f : Flash) (rest : List Request),
    s.Safe → s.dev = .flash f → f.proto = .wfc .zero .none →
    s.pending = s.cmd 0x80#8 ++ s.cmd 0x10#8 ++ rest →
    ∃ m : Memory,
      steps 6 s =
        .next { s with dev := .flash { f with buf := m }, pending := rest, out := ⟨none, []⟩ } ∧
      m.len = f.buf.len ∧ ∀ x : Nat, m.read .flash x = 0xFF#8

/-- §8 of the source with the second unlock of 90_conflicts.md C4 (R89 `SECTOR_ERASE`): the sequence sets bytes
[bank*65536 + N*4096, +4096) to 0xFF "and leaves all other bytes unchanged". That the second unlock keeps the context
`Erase` is decision D3 (assumption 14). -/
def Obligations.SectorEraseSequenceErasesOneSector : Prop :=
  ∀ (s : State) (f : Flash) (a : FlashAddr) (rest : List Request),
    s.Safe → s.dev = .flash f → f.proto = .wfc .zero .none →
    s.pending = s.cmd 0x80#8 ++ [s.sb 0x5555#16 0xAA#8, s.sb 0x2AAA#16 0x55#8, s.sb a 0x30#8] ++ rest →
    ∃ m : Memory,
      steps 6 s =
        .next { s with dev := .flash { f with buf := m }, pending := rest, out := ⟨none, []⟩ } ∧
      m.len = f.buf.len ∧
      ∀ x : Nat, m.read .flash x =
        if sectorBase f.bank a ≤ x ∧ x < sectorBase f.bank a + 4096 then 0xFF#8 else f.buf.read .flash x

/-- §8 of the source, in R164: "Unlock sequence + 0x5555/0xB0 + write(0, b) for b < numberOfBanks sets the active bank to b; a
subsequent read/write at address a then targets offset b×65536+(a&0xFFFF)". From `WFC(0,None)` in data mode (C11). This is the
read; where a program goes in that bank is ProgramAndsOneByte's. -/
def Obligations.BankSequenceMovesTheReadWindow : Prop :=
  ∀ (s : State) (f : Flash) (b : Byte) (a : FlashAddr) (rest : List Request),
    s.Safe → s.dev = .flash f → f.mode = .data → f.proto = .wfc .zero .none → b.toNat < f.buf.len / 65536 →
    s.pending = s.cmd 0xB0#8 ++ s.sb 0#16 b ::
      .one (.read (windowAddr s.cfg.saveTag (flashOff 0#8 a)) 1) :: rest →
    steps 5 s = .next { s with
      dev := .flash { f with bank := b.toNat }
      pending := rest
      out := ⟨some (.byte (f.buf.read .flash (b.toNat * 65536 + a.toNat))), []⟩ }
end

