-- ==== Sys2Proof/Laws/Memory.lean ====
section
/-! SUPPORT. The laws of buffers: what a read answers after each operation, that every operation keeps the canonical form,
and that equal buffers in canonical form are equal data. -/

namespace Sys2Proof.Machine

/-! ### Cells -/

theorem mem_clearCells {lo hi : Nat} {cs : List Host.Cell} {c : Host.Cell} :
    c ∈ clearCells lo hi cs ↔ c ∈ cs ∧ (c.1 < lo ∨ hi ≤ c.1) := by
  simp [clearCells]

theorem mem_insertCell {c d : Host.Cell} {cs : List Host.Cell} : d ∈ insertCell c cs ↔ d = c ∨ d ∈ cs := by
  induction cs with
  | nil => simp [insertCell]
  | cons e es ih =>
    unfold insertCell
    split
    · simp
    · simp only [List.mem_cons, ih]
      tauto

theorem readCells_of_notMem {u : Byte} {cs : List Host.Cell} {a : Nat} (h : ∀ c ∈ cs, c.1 ≠ a) : readCells u cs a = u := by
  induction cs with
  | nil => rfl
  | cons c cs ih =>
    have hc := h c (by simp)
    simp only [readCells, if_neg hc]
    exact ih fun d hd => h d (by simp [hd])

theorem readCells_clearCells (u : Byte) (lo hi : Nat) (cs : List Host.Cell) (a : Nat) :
    readCells u (clearCells lo hi cs) a = if lo ≤ a ∧ a < hi then u else readCells u cs a := by
  split
  case isTrue h =>
    exact readCells_of_notMem fun c hc => by
      have := (mem_clearCells.mp hc).2
      omega
  case isFalse h =>
    induction cs with
    | nil => rfl
    | cons c cs ih =>
      by_cases hk : c.1 < lo ∨ hi ≤ c.1
      · have hcons : clearCells lo hi (c :: cs) = c :: clearCells lo hi cs := by simp [clearCells, hk]
        simp only [hcons, readCells, ih]
      · have hskip : clearCells lo hi (c :: cs) = clearCells lo hi cs := by simp [clearCells, hk]
        have hne : c.1 ≠ a := by omega
        simp only [hskip, readCells, if_neg hne, ih]

theorem readCells_insertCell (u : Byte) (c : Host.Cell) (cs : List Host.Cell) (hc : ∀ d ∈ cs, d.1 ≠ c.1) (a : Nat) :
    readCells u (insertCell c cs) a = if c.1 = a then c.2 else readCells u cs a := by
  induction cs with
  | nil => rfl
  | cons d ds ih =>
    have hd : d.1 ≠ c.1 := hc d (by simp)
    have ih := ih fun e he => hc e (by simp [he])
    unfold insertCell
    split
    · rfl
    · simp only [readCells, ih]
      by_cases h : d.1 = a
      · have hca : c.1 ≠ a := by omega
        simp [h, hca]
      · simp [h]

theorem pairwise_insertCell {c : Host.Cell} {cs : List Host.Cell} (h : cs.Pairwise fun d e => d.1 < e.1)
    (hc : ∀ d ∈ cs, d.1 ≠ c.1) : (insertCell c cs).Pairwise fun d e => d.1 < e.1 := by
  induction cs with
  | nil => simp [insertCell]
  | cons d ds ih =>
    have hd : d.1 ≠ c.1 := hc d (by simp)
    rw [List.pairwise_cons] at h
    unfold insertCell
    split
    case isTrue hlt =>
      refine List.pairwise_cons.mpr ⟨fun e he => ?_, List.pairwise_cons.mpr h⟩
      rcases List.mem_cons.mp he with rfl | he
      · exact hlt
      · exact hlt.trans (h.1 e he)
    case isFalse hge =>
      refine List.pairwise_cons.mpr ⟨fun e he => ?_, ih h.2 fun e he => hc e (by simp [he])⟩
      rcases mem_insertCell.mp he with rfl | he
      · omega
      · exact h.1 e he

theorem readCells_cellsOfBytes (u : Byte) (bs : List Byte) (n a : Nat) :
    readCells u (cellsOfBytes u n bs) a = if n ≤ a then bs.getD (a - n) u else u := by
  induction bs generalizing n with
  | nil => simp [cellsOfBytes, readCells]
  | cons b bs ih =>
    have hshift : ∀ h : n + 1 ≤ a, (b :: bs).getD (a - n) u = bs.getD (a - (n + 1)) u := fun h => by
      have : a - n = (a - (n + 1)) + 1 := by omega
      rw [this, List.getD_cons_succ]
    unfold cellsOfBytes
    split
    case isTrue hb =>
      rw [ih]
      by_cases h : n + 1 ≤ a
      · simp only [if_pos h, if_pos (show n ≤ a by omega), hshift h]
      · by_cases hn : n = a
        · subst hn; simp [hb]
        · simp [h, show ¬ n ≤ a by omega]
    case isFalse hb =>
      simp only [readCells, ih]
      by_cases hn : n = a
      · subst hn; simp
      · by_cases h : n + 1 ≤ a
        · simp only [if_neg hn, if_pos h, if_pos (show n ≤ a by omega), hshift h]
        · simp [hn, h, show ¬ n ≤ a by omega]

theorem mem_cellsOfBytes {u : Byte} {bs : List Byte} {n : Nat} {c : Host.Cell} (h : c ∈ cellsOfBytes u n bs) :
    n ≤ c.1 ∧ c.1 < n + bs.length ∧ c.2 ≠ u := by
  induction bs generalizing n with
  | nil => simp [cellsOfBytes] at h
  | cons b bs ih =>
    unfold cellsOfBytes at h
    split at h
    case isTrue hb =>
      obtain ⟨hlo, hhi, hv⟩ := ih h
      exact ⟨by omega, by simp only [List.length_cons]; omega, hv⟩
    case isFalse hb =>
      rcases List.mem_cons.mp h with rfl | h
      · simp [hb]
      · obtain ⟨hlo, hhi, hv⟩ := ih h
        exact ⟨by omega, by simp only [List.length_cons]; omega, hv⟩

theorem pairwise_cellsOfBytes (u : Byte) (bs : List Byte) (n : Nat) :
    (cellsOfBytes u n bs).Pairwise fun d e => d.1 < e.1 := by
  induction bs generalizing n with
  | nil => simp [cellsOfBytes]
  | cons b bs ih =>
    unfold cellsOfBytes
    split
    · exact ih _
    · refine List.pairwise_cons.mpr ⟨fun e he => ?_, ih _⟩
      have := (mem_cellsOfBytes he).1
      simpa using this

/-- Cells in canonical form are determined by what they read as. -/
theorem cells_eq_of_readCells {u : Byte} {cs ds : List Host.Cell}
    (hc : cs.Pairwise fun d e => d.1 < e.1) (hcu : ∀ c ∈ cs, c.2 ≠ u)
    (hd : ds.Pairwise fun d e => d.1 < e.1) (hdu : ∀ d ∈ ds, d.2 ≠ u)
    (h : ∀ a, readCells u cs a = readCells u ds a) : cs = ds := by
  induction cs generalizing ds with
  | nil =>
    cases ds with
    | nil => rfl
    | cons d ds =>
      have := h d.1
      simp only [readCells, if_true] at this
      exact absurd this.symm (hdu d (by simp))
  | cons c cs ih =>
    cases ds with
    | nil =>
      have := h c.1
      simp only [readCells, if_true] at this
      exact absurd this (hcu c (by simp))
    | cons d ds =>
      rw [List.pairwise_cons] at hc hd
      have hcn : readCells u cs c.1 = u := readCells_of_notMem fun e he => by have := hc.1 e he; omega
      have hdn : readCells u ds d.1 = u := readCells_of_notMem fun e he => by have := hd.1 e he; omega
      have hkey : c.1 = d.1 := by
        rcases Nat.lt_trichotomy c.1 d.1 with hlt | heq | hgt
        · have hx := h c.1
          simp only [readCells, if_true] at hx
          rw [if_neg (by omega), readCells_of_notMem fun e he => by have := hd.1 e he; omega] at hx
          exact absurd hx (hcu c (by simp))
        · exact heq
        · have hx := h d.1
          simp only [readCells, if_true] at hx
          rw [if_neg (by omega), readCells_of_notMem fun e he => by have := hc.1 e he; omega] at hx
          exact absurd hx.symm (hdu d (by simp))
      have hval : c.2 = d.2 := by simpa [readCells, hkey] using h c.1
      have htail : cs = ds := ih hc.2 (fun e he => hcu e (by simp [he])) hd.2 (fun e he => hdu e (by simp [he])) fun a => by
        by_cases ha : c.1 = a
        · rw [← ha, hcn, hkey, hdn]
        · have hx := h a
          simpa [readCells, ha, show d.1 ≠ a by omega] using hx
      rw [htail, Prod.ext hkey hval]

/-! ### Reads -/

@[simp] theorem Memory.len_write (k : Kind) (m : Memory) (a : Nat) (v : Byte) : (m.write k a v).len = m.len := rfl
@[simp] theorem Memory.len_erase (m : Memory) (lo hi : Nat) : (m.erase lo hi).len = m.len := rfl
@[simp] theorem Memory.len_ofBytes (k : Kind) (bs : List Byte) : (Memory.ofBytes k bs).len = bs.length := rfl
@[simp] theorem Memory.len_filled (n : Nat) : (Memory.filled n).len = n := rfl

/-- A read after a write: the byte written at its index, and every other index as before. -/
theorem Memory.read_write (k : Kind) (m : Memory) (a : Nat) (v : Byte) (b : Nat) :
    (m.write k a v).read k b = if b = a then v else m.read k b := by
  have hclear := readCells_clearCells (Memory.unlisted k) a (a + 1) m.cells b
  have hin : (a ≤ b ∧ b < a + 1) ↔ b = a := by omega
  simp only [hin] at hclear
  unfold Memory.write Memory.read
  by_cases hv : v = Memory.unlisted k
  · simp only [hv, if_true, hclear]
  · simp only [if_neg hv]
    rw [readCells_insertCell _ _ _ fun d hd => by have := (mem_clearCells.mp hd).2; simp only; omega, hclear]
    by_cases hb : b = a
    · simp [hb]
    · simp [hb, Ne.symm hb]

/-- A read after an erase: the fill inside the range, and every other index as before. -/
theorem Memory.read_erase (k : Kind) (m : Memory) (lo hi a : Nat) :
    (m.erase lo hi).read k a = if lo ≤ a ∧ a < hi then Memory.unlisted k else m.read k a :=
  readCells_clearCells (Memory.unlisted k) lo hi m.cells a

@[simp] theorem Memory.read_filled (k : Kind) (n a : Nat) : (Memory.filled n).read k a = Memory.unlisted k := rfl

theorem Memory.read_ofBytes (k : Kind) (bs : List Byte) (a : Nat) :
    (Memory.ofBytes k bs).read k a = bs.getD a (Memory.unlisted k) := by
  simpa [Memory.ofBytes, Memory.read] using readCells_cellsOfBytes (Memory.unlisted k) bs 0 a

@[simp] theorem Memory.length_bytes (k : Kind) (m : Memory) : (m.bytes k).length = m.len := by
  simp [Memory.bytes]

theorem Memory.getElem_bytes (k : Kind) (m : Memory) (i : Nat) (h : i < (m.bytes k).length) :
    (m.bytes k)[i] = m.read k i := by
  simp [Memory.bytes]

/-! ### The canonical form -/

theorem Memory.wf_filled (k : Kind) (n : Nat) : (Memory.filled n).wf k := by
  simp [Memory.wf, Memory.filled]

theorem Memory.wf_ofBytes (k : Kind) (bs : List Byte) : (Memory.ofBytes k bs).wf k :=
  ⟨pairwise_cellsOfBytes _ _ _, fun c hc => by
    obtain ⟨_, hhi, hv⟩ := mem_cellsOfBytes hc
    exact ⟨by simpa using hhi, hv⟩⟩

theorem Memory.wf_erase {k : Kind} {m : Memory} (h : m.wf k) (lo hi : Nat) : (m.erase lo hi).wf k :=
  ⟨h.1.sublist List.filter_sublist, fun c hc => h.2 c (mem_clearCells.mp hc).1⟩

theorem Memory.wf_write {k : Kind} {m : Memory} (h : m.wf k) {a : Nat} (ha : a < m.len) (v : Byte) :
    (m.write k a v).wf k := by
  have hrest : (clearCells a (a + 1) m.cells).Pairwise fun d e => d.1 < e.1 := h.1.sublist List.filter_sublist
  have hmem : ∀ c ∈ clearCells a (a + 1) m.cells, c.1 < m.len ∧ c.2 ≠ Memory.unlisted k := fun c hc =>
    h.2 c (mem_clearCells.mp hc).1
  unfold Memory.write
  by_cases hv : v = Memory.unlisted k
  · simp only [hv, if_true]
    exact ⟨hrest, hmem⟩
  · simp only [if_neg hv]
    refine ⟨pairwise_insertCell hrest fun d hd => ?_, fun c hc => ?_⟩
    · have := (mem_clearCells.mp hd).2
      simp only
      omega
    · rcases mem_insertCell.mp hc with rfl | hc
      · exact ⟨ha, hv⟩
      · exact hmem c hc

/-- Buffers in canonical form with the same length and the same bytes are the same data. -/
theorem Memory.eq_of_read {k : Kind} {m n : Memory} (hm : m.wf k) (hn : n.wf k) (hlen : m.len = n.len)
    (h : ∀ a, m.read k a = n.read k a) : m = n := by
  have hcells := cells_eq_of_readCells hm.1 (fun c hc => (hm.2 c hc).2) hn.1 (fun c hc => (hn.2 c hc).2) h
  cases m; cases n
  simp_all

/-- Outside its length a buffer in canonical form reads as the fill. -/
theorem Memory.read_of_len_le {k : Kind} {m : Memory} (h : m.wf k) {a : Nat} (ha : m.len ≤ a) :
    m.read k a = Memory.unlisted k :=
  readCells_of_notMem fun c hc => by have := (h.2 c hc).1; omega

/-- A buffer in canonical form is the buffer of its bytes. -/
theorem Memory.ofBytes_bytes {k : Kind} {m : Memory} (h : m.wf k) : Memory.ofBytes k (m.bytes k) = m := by
  refine Memory.eq_of_read (Memory.wf_ofBytes k _) h (by simp) fun a => ?_
  rw [Memory.read_ofBytes]
  by_cases ha : a < m.len
  · rw [List.getD_eq_getElem _ _ (by simpa using ha), Memory.getElem_bytes]
  · rw [List.getD_eq_default _ _ (by simpa using ha), Memory.read_of_len_le h (by omega)]

end Sys2Proof.Machine
end

