-- ==== Sys2Proof/Laws/Operands.lean ====
section
/-! SUPPORT. The fields of an address and of a command word, taken apart and put together. -/

namespace Sys2Proof.Machine

@[simp] theorem tagOf_windowAddr (t : Byte) (o : Offset) : tagOf (windowAddr t o) = t := by
  apply BitVec.eq_of_toNat_eq
  simp only [tagOf, windowAddr, BitVec.extractLsb'_toNat, BitVec.toNat_append]
  rw [← Nat.shiftLeft_add_eq_or_of_lt o.isLt, Nat.shiftLeft_eq, Nat.shiftRight_eq_div_pow]
  have := o.isLt; have := t.isLt
  omega

@[simp] theorem offOf_windowAddr (t : Byte) (o : Offset) : offOf (windowAddr t o) = o := by
  apply BitVec.eq_of_toNat_eq
  simp only [offOf, windowAddr, BitVec.extractLsb'_toNat, BitVec.toNat_append]
  rw [← Nat.shiftLeft_add_eq_or_of_lt o.isLt, Nat.shiftLeft_eq, Nat.shiftRight_eq_div_pow]
  have := o.isLt; have := t.isLt
  omega

@[simp] theorem windowAddr_tag_off (a : BusAddr) : windowAddr (tagOf a) (offOf a) = a := by
  apply BitVec.eq_of_toNat_eq
  have h := (offOf a).isLt
  simp only [windowAddr, BitVec.toNat_append]
  rw [← Nat.shiftLeft_add_eq_or_of_lt h, Nat.shiftLeft_eq]
  simp only [tagOf, offOf, BitVec.extractLsb'_toNat, Nat.shiftRight_eq_div_pow]
  have := a.isLt
  omega

@[simp] theorem hiOf_flashOff (hi : BitVec 8) (a : FlashAddr) : hiOf (flashOff hi a) = hi := by
  apply BitVec.eq_of_toNat_eq
  simp only [hiOf, flashOff, BitVec.extractLsb'_toNat, BitVec.toNat_append]
  rw [← Nat.shiftLeft_add_eq_or_of_lt a.isLt, Nat.shiftLeft_eq, Nat.shiftRight_eq_div_pow]
  have := a.isLt; have := hi.isLt
  omega

@[simp] theorem a16Of_flashOff (hi : BitVec 8) (a : FlashAddr) : a16Of (flashOff hi a) = a := by
  apply BitVec.eq_of_toNat_eq
  simp only [a16Of, flashOff, BitVec.extractLsb'_toNat, BitVec.toNat_append]
  rw [← Nat.shiftLeft_add_eq_or_of_lt a.isLt, Nat.shiftLeft_eq, Nat.shiftRight_eq_div_pow]
  have := a.isLt; have := hi.isLt
  omega

@[simp] theorem flashOff_hi_a16 (off : Offset) : flashOff (hiOf off) (a16Of off) = off := by
  apply BitVec.eq_of_toNat_eq
  have h := (a16Of off).isLt
  simp only [flashOff, BitVec.toNat_append]
  rw [← Nat.shiftLeft_add_eq_or_of_lt h, Nat.shiftLeft_eq]
  simp only [hiOf, a16Of, BitVec.extractLsb'_toNat, Nat.shiftRight_eq_div_pow]
  have := off.isLt
  omega

/-- An offset is its ignored bits and its flash address. -/
theorem eq_flashOff_of_a16 {off : Offset} {a : FlashAddr} (h : a16Of off = a) : flashOff (hiOf off) a = off := by
  rw [← h, flashOff_hi_a16]

theorem toNat_commandWord (off : Offset) (v : Byte) :
    (commandWord off v).toNat = (a16Of off).toNat * 256 + v.toNat := by
  simp only [commandWord, BitVec.toNat_append]
  rw [← Nat.shiftLeft_add_eq_or_of_lt v.isLt, Nat.shiftLeft_eq]

@[simp] theorem wordAddr_commandWord (off : Offset) (v : Byte) : wordAddr (commandWord off v) = a16Of off := by
  apply BitVec.eq_of_toNat_eq
  rw [wordAddr, BitVec.extractLsb'_toNat, toNat_commandWord, Nat.shiftRight_eq_div_pow]
  have := (a16Of off).isLt; have := v.isLt
  omega

@[simp] theorem wordData_commandWord (off : Offset) (v : Byte) : wordData (commandWord off v) = v := by
  apply BitVec.eq_of_toNat_eq
  rw [wordData, BitVec.extractLsb'_toNat, toNat_commandWord, Nat.shiftRight_eq_div_pow]
  have := v.isLt
  omega

/-- The sector number is below 16 (R57). -/
theorem sectorOf_lt (a : FlashAddr) : sectorOf a < 16 := (a.extractLsb' 12 4).isLt

/-- The sector number is the flash address divided by the sector size (R57). -/
theorem sectorOf_eq (a : FlashAddr) : sectorOf a = a.toNat / 4096 := by
  have := a.isLt
  simp only [sectorOf, BitVec.extractLsb'_toNat, Nat.shiftRight_eq_div_pow]
  omega

/-- Every storage index of a legal bank is inside the buffer (R55). -/
theorem storageIndex_lt {bank len : Nat} (h : bank < numBanks len) (a : FlashAddr) : storageIndex bank a < len := by
  have := a.isLt
  unfold numBanks at h
  unfold storageIndex
  omega

/-- Every sector of a legal bank is inside the buffer (R57). -/
theorem sectorBase_add_le {bank len : Nat} (h : bank < numBanks len) (a : FlashAddr) :
    sectorBase bank a + 4096 ≤ len := by
  have := sectorOf_lt a
  unfold numBanks at h
  unfold sectorBase
  omega

end Sys2Proof.Machine
end

