-- ==== Sys2Proof/Laws/State.lean ====
section
/-! SUPPORT. One lemma per field of the state and per named update, so that no proof unfolds a record update. -/

namespace Sys2Proof.Machine

@[simp] theorem State.emit_cfg (s : State) (o : Output) : (s.emit o).cfg = s.cfg := rfl
@[simp] theorem State.emit_dev (s : State) (o : Output) : (s.emit o).dev = s.dev := rfl
@[simp] theorem State.emit_fault (s : State) (o : Output) : (s.emit o).fault = s.fault := rfl
@[simp] theorem State.emit_pending (s : State) (o : Output) : (s.emit o).pending = s.pending := rfl
@[simp] theorem State.emit_out (s : State) (o : Output) : (s.emit o).out = o := rfl

@[simp] theorem State.install_cfg (s : State) (d : Device) (o : Output) : (s.install d o).cfg = s.cfg := rfl
@[simp] theorem State.install_dev (s : State) (d : Device) (o : Output) : (s.install d o).dev = d := rfl
@[simp] theorem State.install_fault (s : State) (d : Device) (o : Output) : (s.install d o).fault = s.fault := rfl
@[simp] theorem State.install_pending (s : State) (d : Device) (o : Output) : (s.install d o).pending = s.pending := rfl
@[simp] theorem State.install_out (s : State) (d : Device) (o : Output) : (s.install d o).out = o := rfl

@[simp] theorem State.takeFatal_cfg (s : State) (f : Fatal) : (s.takeFatal f).cfg = s.cfg := rfl
@[simp] theorem State.takeFatal_dev (s : State) (f : Fatal) : (s.takeFatal f).dev = s.dev := rfl
@[simp] theorem State.takeFatal_fault (s : State) (f : Fatal) : (s.takeFatal f).fault = some f := rfl
@[simp] theorem State.takeFatal_pending (s : State) (f : Fatal) : (s.takeFatal f).pending = s.pending := rfl
@[simp] theorem State.takeFatal_out (s : State) (f : Fatal) : (s.takeFatal f).out = Output.silent := rfl

@[simp] theorem State.consume_cfg (s : State) : s.consume.cfg = s.cfg := rfl
@[simp] theorem State.consume_dev (s : State) : s.consume.dev = s.dev := rfl
@[simp] theorem State.consume_fault (s : State) : s.consume.fault = s.fault := rfl
@[simp] theorem State.consume_pending (s : State) : s.consume.pending = s.pending.tail := rfl
@[simp] theorem State.consume_out (s : State) : s.consume.out = s.out := rfl

@[simp] theorem State.placeWord_cfg (s : State) (cw : CommandWord) : (s.placeWord cw).cfg = s.cfg := rfl
@[simp] theorem State.placeWord_dev (s : State) (cw : CommandWord) :
    (s.placeWord cw).dev = flashIn s.dev (acceptingState cw) := rfl
@[simp] theorem State.placeWord_fault (s : State) (cw : CommandWord) : (s.placeWord cw).fault = none := rfl
@[simp] theorem State.placeWord_pending (s : State) (cw : CommandWord) :
    (s.placeWord cw).pending = wordRequest s.cfg cw :: s.pending := rfl
@[simp] theorem State.placeWord_out (s : State) (cw : CommandWord) : (s.placeWord cw).out = s.out := rfl

end Sys2Proof.Machine
end

