-- ==== Sys2Proof/Laws/Ops.lean ====
section
/-! SUPPORT. What each shared operation can do, said once: the guard, the three ways an effect reaches the state, the row
forms, and the agreement of a row's own effect with the dispatch of R130. -/

namespace Sys2Proof.Machine

/-! ### The guard and the effects -/

@[simp] theorem whenLive_of_live {s : State} (h : s.fault = none) (a : Answer) : whenLive s a = a := by
  simp [whenLive, h]

@[simp] theorem whenLive_of_fault {s : State} {f : Fatal} (h : s.fault = some f) (a : Answer) :
    whenLive s a = .fault (.stopped f) := by
  simp [whenLive, h]

/-- An answer through the guard is a next state only if no fault is recorded. -/
theorem whenLive_next {s t : State} {a : Answer} (h : whenLive s a = .next t) : s.fault = none ∧ a = .next t := by
  unfold whenLive at h
  split at h
  case h_1 hf => exact ⟨hf, h⟩
  case h_2 => cases h

theorem commit_next {s t : State} {e : Effect Device} (h : s.commit e = .next t) :
    (∃ d ds, e = .done d ds ∧ t = s.install d ⟨none, ds⟩) ∨ (∃ f, e = .raised f ∧ t = s.takeFatal f) := by
  cases e with
  | done d ds => exact .inl ⟨d, ds, rfl, by simpa [State.commit] using h.symm⟩
  | raised f => exact .inr ⟨f, rfl, by simpa [State.commit] using h.symm⟩

theorem answer_next {s t : State} {e : Effect Result} (h : s.answer e = .next t) :
    (∃ r ds, e = .done r ds ∧ t = s.emit ⟨some r, ds⟩) ∨ (∃ f, e = .raised f ∧ t = s.takeFatal f) := by
  cases e with
  | done r ds => exact .inl ⟨r, ds, rfl, by simpa [State.answer] using h.symm⟩
  | raised f => exact .inr ⟨f, rfl, by simpa [State.answer] using h.symm⟩

theorem reply_next {s t : State} {r : ReadReply} (h : s.reply r = .next t) :
    t = s.emit ⟨some (.byte r.byte), r.diags⟩ := by
  simpa [State.reply] using h.symm

@[simp] theorem Effect.map_done {α β : Type} (g : α → β) (a : α) (ds : List Diag) :
    (Effect.done a ds).map g = .done (g a) ds := rfl

@[simp] theorem Effect.map_raised {α β : Type} (g : α → β) (f : Fatal) :
    (Effect.raised f : Effect α).map g = .raised f := rfl

theorem Effect.map_eq_done {α β : Type} {g : α → β} {e : Effect α} {b : β} {ds : List Diag}
    (h : e.map g = .done b ds) : ∃ a, e = .done a ds ∧ g a = b := by
  cases e with
  | done a es =>
    simp only [Effect.map_done, Effect.done.injEq] at h
    exact ⟨a, by rw [h.2], h.1⟩
  | raised f => cases h

theorem Effect.map_eq_raised {α β : Type} {g : α → β} {e : Effect α} {f : Fatal}
    (h : e.map g = .raised f) : e = .raised f := by
  cases e with
  | done a es => cases h
  | raised f' => simpa using h

/-! ### The save-window test -/

@[simp] theorem inWindow_windowAddr (s : State) (off : Offset) : s.inWindow (windowAddr s.cfg.saveTag off) = true := by
  simp [State.inWindow]

theorem inWindow_iff (s : State) (addr : BusAddr) : s.inWindow addr = true ↔ tagOf addr = s.cfg.saveTag := by
  simp [State.inWindow]

/-! ### The row forms -/

/-- A reading row whose own effect agrees with the device's read answers that read. -/
theorem readRow_eq {s : State} {off : Offset} {own : Device → Option ReadReply}
    (h : ∀ r, own s.dev = some r → r = s.dev.read off) : readRow s off own = whenLive s (s.reply (s.dev.read off)) := by
  unfold readRow
  cases ho : own s.dev with
  | none => rfl
  | some r => rw [h r ho]; rfl

/-- A writing row whose own effect agrees with the device's write does that write. -/
theorem writeRow_eq {s : State} {off : Offset} {v : Byte} {own : Device → Option (Effect Device)}
    (h : ∀ e, own s.dev = some e → e = s.dev.write off v) :
    writeRow s off v own = whenLive s (s.commit (s.dev.write off v)) := by
  unfold writeRow
  cases ho : own s.dev with
  | none => rfl
  | some e => rw [h e ho]; rfl

/-- A flash command row whose own effect agrees with the dispatch of R130 does the write of its word. -/
theorem flashRow_eq {s : State} {off : Offset} {v : Byte} {own : Flash → Option (Effect Flash)}
    (h : ∀ f e, own f = some e → e = f.write off v) :
    flashRow s off v own = whenLive s (s.commit (s.dev.write off v)) := by
  refine writeRow_eq fun e he => ?_
  cases hd : s.dev with
  | sram x => simp [hd] at he
  | flash f =>
    simp only [hd, Option.map_eq_some_iff] at he
    obtain ⟨e', he', rfl⟩ := he
    rw [h f e' he']
    rfl

/-- `flashRow_eq` for a row whose own effect `x` stands under one condition `p`. -/
theorem flashRow_ite {s : State} {off : Offset} {v : Byte} {p : Flash → Prop} [DecidablePred p] {x : Flash → Effect Flash}
    (h : ∀ f, p f → x f = f.write off v) :
    flashRow s off v (fun f => if p f then some (x f) else none) = whenLive s (s.commit (s.dev.write off v)) := by
  refine flashRow_eq fun f e he => ?_
  by_cases hp : p f
  · rw [if_pos hp] at he
    rw [← h f hp]
    exact (Option.some.inj he).symm
  · rw [if_neg hp] at he
    cases he

/-! ### The dispatch of R130 in each protocol state -/

theorem Flash.write_unlock1 {f : Flash} {c : Context} (hp : f.proto = .wfc .zero c) {off : Offset}
    (ha : a16Of off = 0x5555#16) : f.write off 0xAA#8 = f.unlock1 c := by
  simp [Flash.write, hp, ha]

theorem Flash.write_unlock2 {f : Flash} {c : Context} (hp : f.proto = .wfc .one c) {off : Offset}
    (ha : a16Of off = 0x2AAA#16) : f.write off 0x55#8 = f.unlock2 c := by
  simp [Flash.write, hp, ha]

theorem Flash.write_idEnter {f : Flash} (hp : f.proto = .wfc .two .none) {off : Offset}
    (ha : a16Of off = 0x5555#16) : f.write off 0x90#8 = f.idEnter := by
  simp [Flash.write, hp, ha]

theorem Flash.write_idExit {f : Flash} (hp : f.proto = .wfc .two .none) {off : Offset}
    (ha : a16Of off = 0x5555#16) : f.write off 0xF0#8 = f.idExit off 0xF0#8 := by
  simp [Flash.write, hp, ha]

theorem Flash.write_eraseArm {f : Flash} (hp : f.proto = .wfc .two .none) {off : Offset}
    (ha : a16Of off = 0x5555#16) : f.write off 0x80#8 = f.eraseArm := by
  simp [Flash.write, hp, ha]

theorem Flash.write_chipErase {f : Flash} (hp : f.proto = .wfc .two .erase) {off : Offset}
    (ha : a16Of off = 0x5555#16) : f.write off 0x10#8 = f.chipErase := by
  simp [Flash.write, hp, ha]

theorem Flash.write_sectorErase {f : Flash} (hp : f.proto = .wfc .two .erase) (off : Offset) :
    f.write off 0x30#8 = f.sectorErase off := by
  simp [Flash.write, hp]

theorem Flash.write_programArm {f : Flash} (hp : f.proto = .wfc .two .none) {off : Offset}
    (ha : a16Of off = 0x5555#16) : f.write off 0xA0#8 = f.programArm := by
  simp [Flash.write, hp, ha]

theorem Flash.write_bankArm {f : Flash} (hp : f.proto = .wfc .two .none) {off : Offset}
    (ha : a16Of off = 0x5555#16) : f.write off 0xB0#8 = f.bankArm := by
  simp [Flash.write, hp, ha]

theorem Flash.write_programData {f : Flash} (hp : f.proto = .writeSingleByte) (off : Offset) (v : Byte) :
    f.write off v = f.programData off v := by
  simp [Flash.write, hp]

theorem Flash.write_bankSelect {f : Flash} (hp : f.proto = .bankChange) {off : Offset} (ha : a16Of off = 0#16) (v : Byte) :
    f.write off v = f.bankSelect off v := by
  simp [Flash.write, hp, ha]

theorem Flash.write_bankSelectBadAddr {f : Flash} (hp : f.proto = .bankChange) {off : Offset} (ha : a16Of off ≠ 0#16)
    (v : Byte) : f.write off v = f.bankSelectBadAddr off v := by
  simp [Flash.write, hp, ha]

/-- A word that the protocol state does not accept is rejected (R86, R140). -/
theorem Flash.write_of_not_accepts {f : Flash} {off : Offset} {v : Byte} (h : accepts f.proto (a16Of off) v = false) :
    f.write off v = f.reject off v := by
  unfold Flash.write
  generalize a16Of off = a at h ⊢
  rcases hp : f.proto with ⟨s, c⟩ | _ | _
  · rw [hp] at h
    cases s <;> cases c <;> by_cases ha : a = 0x5555#16 <;> simp_all [accepts]
  · simp [hp, accepts] at h
  · simp [hp, accepts] at h

end Sys2Proof.Machine
end

