-- ==== Sys2Proof/Laws/Exec.lean ====
section
/-! SUPPORT. What each meaning is in terms of the shared operations, and what an instruction that answers a next state can
have done. -/

namespace Sys2Proof.Machine

/-! ### The meanings as accesses -/

theorem exec_busReadSave (addr : BusAddr) (s : State) : exec (.busReadSave addr) s = whenLive s (s.busRead addr) := by
  show execBusReadSave addr s = _
  unfold execBusReadSave State.busRead
  split <;> rfl

theorem exec_busReadUnmapped (addr : BusAddr) (s : State) :
    exec (.busReadUnmapped addr) s = whenLive s (s.busRead addr) := by
  show execBusReadUnmapped addr s = _
  unfold execBusReadUnmapped State.busRead
  split <;> rfl

theorem exec_busWriteSave (addr : BusAddr) (v : Byte) (s : State) :
    exec (.busWriteSave addr v) s = whenLive s (s.busWrite addr v) := by
  show execBusWriteSave addr v s = _
  unfold execBusWriteSave State.busWrite
  split <;> rfl

theorem exec_busWriteUnmapped (addr : BusAddr) (v : Byte) (s : State) :
    exec (.busWriteUnmapped addr v) s = whenLive s (s.busWrite addr v) := by
  show execBusWriteUnmapped addr v s = _
  unfold execBusWriteUnmapped State.busWrite
  split <;> rfl

theorem exec_sramRead (off : Offset) (s : State) :
    exec (.sramRead off) s = whenLive s (s.reply (s.dev.read off)) := by
  show execSramRead off s = _
  unfold execSramRead
  exact readRow_eq fun r hr => by cases hd : s.dev <;> simp_all [Device.read]

theorem exec_flashReadData (off : Offset) (s : State) :
    exec (.flashReadData off) s = whenLive s (s.reply (s.dev.read off)) := by
  show execFlashReadData off s = _
  unfold execFlashReadData
  exact readRow_eq fun r hr => by
    cases hd : s.dev with
    | sram x => simp [hd] at hr
    | flash f =>
      simp only [hd, Option.ite_none_right_eq_some, Option.some.injEq] at hr
      simp [Device.read, Flash.read, hr.1, hr.2]

theorem exec_flashReadChipId (off : Offset) (s : State) :
    exec (.flashReadChipId off) s = whenLive s (s.reply (s.dev.read off)) := by
  show execFlashReadChipId off s = _
  unfold execFlashReadChipId
  exact readRow_eq fun r hr => by
    cases hd : s.dev with
    | sram x => simp [hd] at hr
    | flash f =>
      simp only [hd, Option.ite_none_right_eq_some, Option.some.injEq] at hr
      simp [Device.read, Flash.read, hr.1, hr.2]

theorem exec_sramWrite (off : Offset) (v : Byte) (s : State) :
    exec (.sramWrite off v) s = whenLive s (s.commit (s.dev.write off v)) := by
  show execSramWrite off v s = _
  unfold execSramWrite
  exact writeRow_eq fun e he => by cases hd : s.dev <;> simp_all [Device.write]

/-- A flash command row does the device write of its word, in every state. -/
theorem exec_flashWord {i : Instr} {off : Offset} {v : Byte} (h : i.flashWord = some (off, v)) (s : State) :
    exec i s = whenLive s (s.commit (s.dev.write off v)) := by
  cases i <;> simp only [Instr.flashWord, reduceCtorEq, Option.some.injEq, Prod.mk.injEq] at h <;> obtain ⟨rfl, rfl⟩ := h
  case unlock1 hi =>
    show execUnlock1 hi s = _
    unfold execUnlock1
    refine flashRow_eq fun f e he => ?_
    split at he
    case h_1 c hp => rw [Flash.write_unlock1 hp (a16Of_flashOff _ _)]; exact (Option.some.inj he).symm
    case h_2 => cases he
  case unlock2 hi =>
    show execUnlock2 hi s = _
    unfold execUnlock2
    refine flashRow_eq fun f e he => ?_
    split at he
    case h_1 c hp => rw [Flash.write_unlock2 hp (a16Of_flashOff _ _)]; exact (Option.some.inj he).symm
    case h_2 => cases he
  case idEnter hi =>
    show execIdEnter hi s = _
    unfold execIdEnter
    exact flashRow_ite fun f hp => (Flash.write_idEnter hp (a16Of_flashOff _ _)).symm
  case idExit hi =>
    show execIdExit hi s = _
    unfold execIdExit
    exact flashRow_ite fun f hp => (Flash.write_idExit hp (a16Of_flashOff _ _)).symm
  case eraseArm hi =>
    show execEraseArm hi s = _
    unfold execEraseArm
    exact flashRow_ite fun f hp => (Flash.write_eraseArm hp (a16Of_flashOff _ _)).symm
  case chipErase hi =>
    show execChipErase hi s = _
    unfold execChipErase
    exact flashRow_ite fun f hp => (Flash.write_chipErase hp (a16Of_flashOff _ _)).symm
  case sectorErase =>
    show execSectorErase _ s = _
    unfold execSectorErase
    exact flashRow_ite fun f hp => (Flash.write_sectorErase hp _).symm
  case programArm hi =>
    show execProgramArm hi s = _
    unfold execProgramArm
    exact flashRow_ite fun f hp => (Flash.write_programArm hp (a16Of_flashOff _ _)).symm
  case bankArm hi =>
    show execBankArm hi s = _
    unfold execBankArm
    exact flashRow_ite fun f hp => (Flash.write_bankArm hp (a16Of_flashOff _ _)).symm
  case reject =>
    show execReject _ _ s = _
    unfold execReject
    refine flashRow_eq fun f e he => ?_
    split at he
    case isTrue => cases he
    case isFalse ha =>
      rw [← Option.some.inj he]
      exact (Flash.write_of_not_accepts (Bool.eq_false_iff.mpr ha)).symm
  case programData =>
    show execProgramData _ _ s = _
    unfold execProgramData
    exact flashRow_ite fun f hp => (Flash.write_programData hp _ _).symm
  case bankSelect hi b =>
    show execBankSelect hi b s = _
    unfold execBankSelect
    exact flashRow_ite fun f hp => (Flash.write_bankSelect hp (a16Of_flashOff _ _) _).symm
  case bankSelectBadAddr =>
    show execBankSelectBadAddr _ _ s = _
    unfold execBankSelectBadAddr
    exact flashRow_ite fun f hp => (Flash.write_bankSelectBadAddr hp.1 hp.2 _).symm

/-- What a flash command row answers on a flash device, with no fault recorded: the effect of the dispatch of R130. -/
theorem exec_flashWord_next {i : Instr} {off : Offset} {v : Byte} {s : State} {f : Flash}
    (hi : i.flashWord = some (off, v)) (hl : s.fault = none) (hd : s.dev = .flash f) :
    exec i s =
      match f.write off v with
      | .done g ds => .next { s with dev := .flash g, out := ⟨none, ds⟩ }
      | .raised x => .next { s with fault := some x, out := ⟨none, []⟩ } := by
  have h : s.dev.write off v = (f.write off v).map .flash := by rw [hd]; rfl
  rw [exec_flashWord hi, whenLive_of_live hl, h]
  cases f.write off v <;> rfl

/-- Substitution's meaning, with no fault recorded. -/
theorem exec_setSaveDevice {s : State} (h : s.fault = none) (t : SaveTypeInput) (seed : Option (List Byte)) :
    exec (.setSaveDevice t seed) s =
      .next (s.install (buildDevice t seed).1 ⟨some (.oldDevice s.dev), substitutionDiags t seed⟩) :=
  whenLive_of_live h _

/-! ### What a device write can do -/

theorem Sram.write_done {x y : Sram} {off : Offset} {v : Byte} {ds : List Diag} (h : x.write off v = .done y ds) :
    (off.toNat < 65536 ∧ y = { buf := x.buf.write .sram off.toNat v } ∧ ds = []) ∨
    (65536 ≤ off.toNat ∧ y = x ∧ ds = [⟨.sramWriteOutOfRange, .devWrite off v⟩]) := by
  unfold Sram.write at h
  split at h <;> simp only [Effect.done.injEq] at h
  · exact .inl ⟨by assumption, h.1.symm, h.2.symm⟩
  · exact .inr ⟨by omega, h.1.symm, h.2.symm⟩

/-- An Sram write never raises a fault (R121). -/
theorem Sram.write_not_raised {x : Sram} {off : Offset} {v : Byte} {f : Fatal} : x.write off v ≠ .raised f := by
  unfold Sram.write
  split <;> simp

/-- A flash write is the effect of exactly one row. Each case gives the protocol state the row needs. -/
theorem Flash.write_cases (f : Flash) (off : Offset) (v : Byte) :
    (∃ c, f.proto = .wfc .zero c ∧ a16Of off = 0x5555#16 ∧ v = 0xAA#8 ∧ f.write off v = f.unlock1 c) ∨
    (∃ c, f.proto = .wfc .one c ∧ a16Of off = 0x2AAA#16 ∧ v = 0x55#8 ∧ f.write off v = f.unlock2 c) ∨
    (f.proto = .wfc .two .none ∧ a16Of off = 0x5555#16 ∧ v = 0x90#8 ∧ f.write off v = f.idEnter) ∨
    (f.proto = .wfc .two .none ∧ a16Of off = 0x5555#16 ∧ v = 0xF0#8 ∧ f.write off v = f.idExit off v) ∨
    (f.proto = .wfc .two .none ∧ a16Of off = 0x5555#16 ∧ v = 0x80#8 ∧ f.write off v = f.eraseArm) ∨
    (f.proto = .wfc .two .erase ∧ a16Of off = 0x5555#16 ∧ v = 0x10#8 ∧ f.write off v = f.chipErase) ∨
    (f.proto = .wfc .two .erase ∧ v = 0x30#8 ∧ f.write off v = f.sectorErase off) ∨
    (f.proto = .wfc .two .none ∧ a16Of off = 0x5555#16 ∧ v = 0xA0#8 ∧ f.write off v = f.programArm) ∨
    (f.proto = .wfc .two .none ∧ a16Of off = 0x5555#16 ∧ v = 0xB0#8 ∧ f.write off v = f.bankArm) ∨
    (accepts f.proto (a16Of off) v = false ∧ f.write off v = f.reject off v) ∨
    (f.proto = .writeSingleByte ∧ f.write off v = f.programData off v) ∨
    (f.proto = .bankChange ∧ a16Of off = 0#16 ∧ f.write off v = f.bankSelect off v) ∨
    (f.proto = .bankChange ∧ a16Of off ≠ 0#16 ∧ f.write off v = f.bankSelectBadAddr off v) := by
  cases hacc : accepts f.proto (a16Of off) v with
  | false => simp [Flash.write_of_not_accepts hacc]
  | true =>
    rcases hp : f.proto with ⟨s, c⟩ | _ | _
    · rw [hp] at hacc
      cases s <;> cases c <;> simp [accepts] at hacc
      · obtain ⟨ha, rfl⟩ := hacc; simp [Flash.write_unlock1 hp ha, ha]
      · obtain ⟨ha, rfl⟩ := hacc; simp [Flash.write_unlock1 hp ha, ha]
      · obtain ⟨ha, rfl⟩ := hacc; simp [Flash.write_unlock2 hp ha, ha]
      · obtain ⟨ha, rfl⟩ := hacc; simp [Flash.write_unlock2 hp ha, ha]
      · obtain ⟨ha, hv⟩ := hacc
        rcases hv with (((rfl | rfl) | rfl) | rfl) | rfl
        · simp [Flash.write_idEnter hp ha, ha]
        · simp [Flash.write_idExit hp ha, ha]
        · simp [Flash.write_eraseArm hp ha, ha]
        · simp [Flash.write_programArm hp ha, ha]
        · simp [Flash.write_bankArm hp ha, ha]
      · rcases hacc with ⟨ha, rfl⟩ | rfl
        · simp [Flash.write_chipErase hp ha, ha]
        · simp [Flash.write_sectorErase hp off]
    · simp [Flash.write_programData hp]
    · by_cases ha : a16Of off = 0#16
      · simp [Flash.write_bankSelect hp ha, ha]
      · simp [Flash.write_bankSelectBadAddr hp ha, ha]

/-! ### What an instruction can do -/

/-- The four ways an instruction answers a next state: it puts something out, a device write completes (and then it is no
read and no inspection), a fatal fault is entered, or the device is replaced. -/
theorem exec_next {i : Instr} {s t : State} (h : exec i s = .next t) :
    s.fault = none ∧
    ((∃ o, t = s.emit o) ∨
     ((isRead i = false ∧ isInspection i = false) ∧
       ∃ off v d ds, s.dev.write off v = .done d ds ∧ t = s.install d ⟨none, ds⟩) ∨
     (∃ f, t = s.takeFatal f) ∨
     (∃ d o, replacesDevice i = true ∧ t = s.install d o)) := by
  cases hw : i.flashWord with
  | some w =>
    rw [exec_flashWord (off := w.1) (v := w.2) hw] at h
    obtain ⟨hf, hc⟩ := whenLive_next h
    refine ⟨hf, ?_⟩
    rcases commit_next hc with ⟨d, ds, he, rfl⟩ | ⟨f, he, rfl⟩
    · exact .inr (.inl ⟨by cases i <;> simp_all [Instr.flashWord, isRead, isInspection], _, _, d, ds, he, rfl⟩)
    · exact .inr (.inr (.inl ⟨f, rfl⟩))
  | none =>
    cases i <;> simp only [Instr.flashWord, reduceCtorEq] at hw
    case busReadSave addr =>
      rw [exec_busReadSave] at h
      obtain ⟨hf, hc⟩ := whenLive_next h
      unfold State.busRead State.unmappedRead at hc
      split at hc <;> exact ⟨hf, .inl ⟨_, reply_next hc⟩⟩
    case busReadUnmapped addr =>
      rw [exec_busReadUnmapped] at h
      obtain ⟨hf, hc⟩ := whenLive_next h
      unfold State.busRead State.unmappedRead at hc
      split at hc <;> exact ⟨hf, .inl ⟨_, reply_next hc⟩⟩
    case busWriteSave addr v =>
      rw [exec_busWriteSave] at h
      obtain ⟨hf, hc⟩ := whenLive_next h
      refine ⟨hf, ?_⟩
      unfold State.busWrite State.unmappedWrite at hc
      split at hc
      · rcases commit_next hc with ⟨d, ds, he, rfl⟩ | ⟨f, he, rfl⟩
        · exact .inr (.inl ⟨⟨rfl, rfl⟩, _, _, d, ds, he, rfl⟩)
        · exact .inr (.inr (.inl ⟨f, rfl⟩))
      · exact .inl ⟨_, (Host.Outcome.next.inj hc).symm⟩
    case busWriteUnmapped addr v =>
      rw [exec_busWriteUnmapped] at h
      obtain ⟨hf, hc⟩ := whenLive_next h
      refine ⟨hf, ?_⟩
      unfold State.busWrite State.unmappedWrite at hc
      split at hc
      · rcases commit_next hc with ⟨d, ds, he, rfl⟩ | ⟨f, he, rfl⟩
        · exact .inr (.inl ⟨⟨rfl, rfl⟩, _, _, d, ds, he, rfl⟩)
        · exact .inr (.inr (.inl ⟨f, rfl⟩))
      · exact .inl ⟨_, (Host.Outcome.next.inj hc).symm⟩
    case sramRead off =>
      rw [exec_sramRead] at h
      obtain ⟨hf, hc⟩ := whenLive_next h
      exact ⟨hf, .inl ⟨_, reply_next hc⟩⟩
    case sramWrite off v =>
      rw [exec_sramWrite] at h
      obtain ⟨hf, hc⟩ := whenLive_next h
      refine ⟨hf, ?_⟩
      rcases commit_next hc with ⟨d, ds, he, rfl⟩ | ⟨f, he, rfl⟩
      · exact .inr (.inl ⟨⟨rfl, rfl⟩, _, _, d, ds, he, rfl⟩)
      · exact .inr (.inr (.inl ⟨f, rfl⟩))
    case flashReadData off =>
      rw [exec_flashReadData] at h
      obtain ⟨hf, hc⟩ := whenLive_next h
      exact ⟨hf, .inl ⟨_, reply_next hc⟩⟩
    case flashReadChipId off =>
      rw [exec_flashReadChipId] at h
      obtain ⟨hf, hc⟩ := whenLive_next h
      exact ⟨hf, .inl ⟨_, reply_next hc⟩⟩
    case setSaveDevice ty seed =>
      obtain ⟨hf, hc⟩ := whenLive_next h
      exact ⟨hf, .inr (.inr (.inr ⟨_, _, rfl, (Host.Outcome.next.inj hc).symm⟩))⟩
    case restore r =>
      obtain ⟨hf, hc⟩ := whenLive_next h
      refine ⟨hf, ?_⟩
      split at hc
      · exact .inr (.inr (.inr ⟨_, _, rfl, (Host.Outcome.next.inj hc).symm⟩))
      · cases hc
    all_goals
      obtain ⟨hf, hc⟩ := whenLive_next h
      refine ⟨hf, ?_⟩
      rcases answer_next hc with ⟨r, ds, _, rfl⟩ | ⟨f, _, rfl⟩
      · exact .inl ⟨_, rfl⟩
      · exact .inr (.inr (.inl ⟨f, rfl⟩))

/-! ### Several operations -/

@[simp] theorem steps_zero (s : State) : steps 0 s = .next s := rfl

theorem steps_succ_of_next {s t : State} (h : step s = .next t) (n : Nat) : steps (n + 1) s = steps n t := by
  simp only [steps, h]

end Sys2Proof.Machine
end

