-- ==== Sys2Proof/Laws/Devices.lean ====
section
/-! SUPPORT. Every operation that makes a device makes one that meets the invariants, and so does every device write; and
what a row's mask selects of a command word. -/

namespace Sys2Proof.Machine

/-! ### The invariants -/

/-- A seeded buffer has the canonical form and its fixed length (R108). -/
theorem seeded_wf (k : Kind) (seed : Option (List Byte)) (n : Nat) :
    (seeded k seed n).1.wf k ∧ (seeded k seed n).1.len = n := by
  unfold seeded
  split
  · exact ⟨Memory.wf_filled k n, rfl⟩
  · split
    case isTrue h => exact ⟨Memory.wf_ofBytes k _, h⟩
    case isFalse => exact ⟨Memory.wf_filled k n, rfl⟩

theorem buildSram_wf (seed : Option (List Byte)) : (buildSram seed).1.wf := seeded_wf .sram seed 65536

theorem buildFlash_wf (seed : Option (List Byte)) {n : Nat} (hn : n = 65536 ∨ n = 131072) : (buildFlash seed n).1.wf := by
  obtain ⟨hw, hl⟩ := seeded_wf .flash seed n
  refine ⟨hw, hl.symm ▸ hn, ?_⟩
  show 0 < numBanks (seeded .flash seed n).1.len
  rw [hl]
  rcases hn with rfl | rfl <;> decide

theorem buildDevice_wf (t : SaveTypeInput) (seed : Option (List Byte)) : (buildDevice t seed).1.wf := by
  rcases t with t | _
  · cases t
    exacts [buildSram_wf seed, buildSram_wf seed, buildFlash_wf seed (.inl rfl), buildFlash_wf seed (.inr rfl),
      buildSram_wf seed, buildSram_wf seed]
  · exact buildSram_wf seed

/-- A record that restore accepts stands for a device that meets the invariants (R205). -/
theorem deviceOfRecord_wf {r : Record} {d : Device} (h : deviceOfRecord r = some d) : d.wf := by
  unfold deviceOfRecord at h
  split at h
  · split at h
    case isTrue hl => cases h; exact ⟨Memory.wf_ofBytes _ _, hl⟩
    case isFalse => cases h
  · split at h
    case isTrue hl =>
      simp only [Option.map_eq_some_iff] at h
      obtain ⟨p, _, rfl⟩ := h
      exact ⟨Memory.wf_ofBytes _ _, hl.1, hl.2⟩
    case isFalse => cases h

theorem Device.write_wf {d d' : Device} {off : Offset} {v : Byte} {ds : List Diag} (hw : d.wf)
    (h : d.write off v = .done d' ds) : d'.wf := by
  cases d with
  | sram x =>
    obtain ⟨y, hy, rfl⟩ := Effect.map_eq_done h
    rcases Sram.write_done hy with ⟨ho, rfl, _⟩ | ⟨_, rfl, _⟩
    · exact ⟨Memory.wf_write hw.1 (by rw [hw.2]; exact ho) v, hw.2⟩
    · exact hw
  | flash f =>
    obtain ⟨g, hg, rfl⟩ := Effect.map_eq_done h
    obtain ⟨h1, h2, h3⟩ := hw
    rcases f.write_cases off v with ⟨c, _, _, _, he⟩ | ⟨c, _, _, _, he⟩ | ⟨_, _, _, he⟩ | ⟨_, _, _, he⟩ | ⟨_, _, _, he⟩ |
      ⟨_, _, _, he⟩ | ⟨_, _, he⟩ | ⟨_, _, _, he⟩ | ⟨_, _, _, he⟩ | ⟨_, he⟩ | ⟨_, he⟩ | ⟨_, _, he⟩ | ⟨_, _, he⟩ <;>
      rw [he] at hg
    all_goals simp only [Flash.unlock1, Flash.unlock2, Flash.idEnter, Flash.idExit, Flash.eraseArm, Flash.programArm,
      Flash.bankArm, Flash.reject, Flash.chipErase, Flash.sectorErase, Flash.programData, Flash.bankSelect,
      Flash.bankSelectBadAddr] at hg
    all_goals (try split at hg)
    all_goals first | (cases hg; done) | skip
    all_goals
      simp only [Effect.done.injEq] at hg
      obtain ⟨rfl, rfl⟩ := hg
    all_goals first | exact ⟨h1, h2, h3⟩ | exact ⟨Memory.wf_erase h1 _ _, h2, h3⟩ | skip
    · exact ⟨Memory.wf_write h1 (by omega) _, h2, h3⟩
    · exact ⟨h1, h2, by simp_all [bankOutOfRange]⟩

/-! ### The masks of R83 -/

/-- The mask of a row that fixes A16 and DATA. -/
theorem commandWord_and_full (off : Offset) (v : Byte) (m : CommandWord) :
    commandWord off v &&& 0xFFFFFF#24 = m ↔ a16Of off = wordAddr m ∧ v = wordData m := by
  rw [show (0xFFFFFF#24) = BitVec.allOnes 24 by decide, BitVec.and_allOnes]
  constructor
  · rintro rfl; simp
  · rintro ⟨h1, h2⟩
    apply BitVec.eq_of_toNat_eq
    rw [toNat_commandWord, h1, h2]
    simp only [wordAddr, wordData, BitVec.extractLsb'_toNat, Nat.shiftRight_eq_div_pow]
    have := m.isLt
    omega

/-- The mask of a row that fixes DATA. -/
theorem commandWord_and_low (off : Offset) (v d : Byte) :
    commandWord off v &&& 0x0000FF#24 = d.setWidth 24 ↔ v = d := by
  rw [← BitVec.toNat_inj, BitVec.toNat_and, toNat_commandWord, ← BitVec.toNat_inj,
    show (0x0000FF#24).toNat = 2 ^ 8 - 1 by decide, Nat.and_two_pow_sub_one_eq_mod]
  have := v.isLt
  have := d.isLt
  simp only [BitVec.toNat_setWidth]
  omega

/-- The mask of a row that fixes A16 at 0. -/
theorem commandWord_and_high (off : Offset) (v : Byte) :
    commandWord off v &&& 0xFFFF00#24 = 0#24 ↔ a16Of off = 0#16 := by
  have h : commandWord off v &&& 0xFFFF00#24 = (a16Of off ++ 0#8 : BitVec 24) := by
    rw [show (0xFFFF00#24) = (BitVec.allOnes 16 ++ 0#8 : BitVec 24) by decide, commandWord]
    apply BitVec.eq_of_getLsbD_eq
    intro i hi
    rw [BitVec.getLsbD_and, BitVec.getLsbD_append, BitVec.getLsbD_append, BitVec.getLsbD_append]
    split
    · simp
    case isFalse =>
      have : i - 8 < 16 := by omega
      simp only [BitVec.getLsbD_allOnes, this, decide_true, Bool.and_true]
  rw [h]
  constructor
  · intro h0
    have h1 := wordAddr_commandWord (flashOff 0#8 (a16Of off)) 0#8
    rw [commandWord, a16Of_flashOff, h0] at h1
    rw [← h1]; decide
  · intro h0; rw [h0]; decide

end Sys2Proof.Machine
end

