-- ==== Sys2Proof/Laws/PerInstr.lean ====
section
/-! SUPPORT. Per-instruction family EncodeAccepted: an instruction's encoding is a request the decoder accepts, under every
configuration and in every device state (spec/30_encoding.md R83 to R88). -/

namespace Sys2Proof.Laws.EncodeAccepted

/-- The decoder accepts the encoding of `i` everywhere, though in another device state it may be another row. -/
def Statement (i : Instr) : Prop :=
  ∀ (cfg : Config) (view : DeviceView), ∃ j : Instr, decode cfg view (encode cfg i) = .accepted j

/-- A one-byte read is accepted. -/
theorem read_accepted (cfg : Config) (view : DeviceView) (addr : BusAddr) :
    ∃ j : Instr, decode cfg view (readRequest addr) = .accepted j := by
  by_cases h : Machine.tagOf addr = cfg.saveTag
  · exact ⟨_, by simp [decode, decodeBus, readRequest, h]; rfl⟩
  · exact ⟨_, by simp [decode, decodeBus, readRequest, h]; rfl⟩

/-- A one-byte write is accepted. -/
theorem write_accepted (cfg : Config) (view : DeviceView) (addr : BusAddr) (v : Byte) :
    ∃ j : Instr, decode cfg view (writeRequest addr v) = .accepted j := by
  by_cases h : Machine.tagOf addr = cfg.saveTag
  · exact ⟨_, by simp [decode, decodeBus, writeRequest, h]; rfl⟩
  · exact ⟨_, by simp [decode, decodeBus, writeRequest, h]; rfl⟩

theorem busReadSave (addr : BusAddr) : Statement (.busReadSave addr) := fun _ _ => read_accepted _ _ _
theorem busReadUnmapped (addr : BusAddr) : Statement (.busReadUnmapped addr) := fun _ _ => read_accepted _ _ _
theorem busWriteSave (addr : BusAddr) (v : Byte) : Statement (.busWriteSave addr v) := fun _ _ => write_accepted _ _ _ _
theorem busWriteUnmapped (addr : BusAddr) (v : Byte) : Statement (.busWriteUnmapped addr v) :=
  fun _ _ => write_accepted _ _ _ _
theorem sramRead (off : Offset) : Statement (.sramRead off) := fun _ _ => read_accepted _ _ _
theorem sramWrite (off : Offset) (v : Byte) : Statement (.sramWrite off v) := fun _ _ => write_accepted _ _ _ _
theorem flashReadData (off : Offset) : Statement (.flashReadData off) := fun _ _ => read_accepted _ _ _
theorem flashReadChipId (off : Offset) : Statement (.flashReadChipId off) := fun _ _ => read_accepted _ _ _
theorem unlock1 (hi : BitVec 8) : Statement (.unlock1 hi) := fun _ _ => write_accepted _ _ _ _
theorem unlock2 (hi : BitVec 8) : Statement (.unlock2 hi) := fun _ _ => write_accepted _ _ _ _
theorem idEnter (hi : BitVec 8) : Statement (.idEnter hi) := fun _ _ => write_accepted _ _ _ _
theorem idExit (hi : BitVec 8) : Statement (.idExit hi) := fun _ _ => write_accepted _ _ _ _
theorem eraseArm (hi : BitVec 8) : Statement (.eraseArm hi) := fun _ _ => write_accepted _ _ _ _
theorem chipErase (hi : BitVec 8) : Statement (.chipErase hi) := fun _ _ => write_accepted _ _ _ _
theorem sectorErase (off : Offset) : Statement (.sectorErase off) := fun _ _ => write_accepted _ _ _ _
theorem programArm (hi : BitVec 8) : Statement (.programArm hi) := fun _ _ => write_accepted _ _ _ _
theorem bankArm (hi : BitVec 8) : Statement (.bankArm hi) := fun _ _ => write_accepted _ _ _ _
theorem reject (off : Offset) (v : Byte) : Statement (.reject off v) := fun _ _ => write_accepted _ _ _ _
theorem programData (off : Offset) (v : Byte) : Statement (.programData off v) := fun _ _ => write_accepted _ _ _ _
theorem bankSelect (hi : BitVec 8) (b : Byte) : Statement (.bankSelect hi b) := fun _ _ => write_accepted _ _ _ _
theorem bankSelectBadAddr (off : Offset) (v : Byte) : Statement (.bankSelectBadAddr off v) :=
  fun _ _ => write_accepted _ _ _ _
theorem setSaveDevice (t : SaveTypeInput) (seed : Option (List Byte)) : Statement (.setSaveDevice t seed) :=
  fun _ _ => ⟨_, rfl⟩
theorem getData : Statement .getData := fun _ _ => ⟨_, rfl⟩
theorem getType : Statement .getType := fun _ _ => ⟨_, rfl⟩
theorem storageType : Statement .storageType := fun _ _ => ⟨_, rfl⟩
theorem snapshot : Statement .snapshot := fun _ _ => ⟨_, rfl⟩
theorem restore (r : Record) : Statement (.restore r) := fun _ _ => ⟨_, rfl⟩

end Sys2Proof.Laws.EncodeAccepted
end

