-- ==== Sys2Proof/Tests/Slice0.lean ====
section
/-! SUPPORT. The model's own tests. Expected values are the spec's: the encodings of spec/30_encoding.md R80 to R83 and the
vectors of spec/95_test_vectors.md, named in each docstring. The last part gives, for every statement that has hypotheses,
a state and operands that meet them, clause by clause. -/

namespace Sys2Proof.Tests

open Sys2Proof Sys2Proof.Machine

/-! ### Helpers -/

/-- A block with tag 0x0E whose Sram holds `cells` and 0x00 elsewhere. -/
abbrev sramWith (cells : List Host.Cell) : Sram := ⟨⟨65536, cells⟩⟩

/-- A flash device of `len` bytes that holds `cells` and 0xFF elsewhere. -/
abbrev flashWith (len : Nat) (cells : List Host.Cell) (bank : Nat) (mode : ReadMode) (proto : Proto) : Flash :=
  ⟨⟨len, cells⟩, bank, mode, proto⟩

abbrev block (d : Device) : State := ⟨⟨0x0E#8⟩, d, none, [], Output.silent⟩
abbrev sramBlock (cells : List Host.Cell) : State := block (.sram (sramWith cells))
abbrev flashBlock (f : Flash) : State := block (.flash f)

/-- A fresh Flash64K in protocol state `p`. -/
abbrev fresh64 (p : Proto) : State := flashBlock (flashWith 65536 [] 0 .data p)

def outOf : Answer → Option Output
  | .next t => some t.out
  | .fault _ => none
  | .refused _ => none

def devOf : Answer → Option Device
  | .next t => some t.dev
  | .fault _ => none
  | .refused _ => none

/-- The next state. -/
def nextOf : Answer → Option State
  | .next t => some t
  | .fault _ => none
  | .refused _ => none

/-- The diagnostic codes put out. -/
def codesOf (a : Answer) : Option (List DiagCode) := (outOf a).map fun o => o.diags.map (·.code)

/-- The protocol state after. -/
def protoOf (a : Answer) : Option Proto := (devOf a).bind fun d => d.view.proto?

/-- The byte put out. -/
def byteOf (a : Answer) : Option Byte :=
  match outOf a with
  | some ⟨some (.byte b), _⟩ => some b
  | _ => none

/-- The bytes at some storage indexes after. -/
def bytesAt (a : Answer) (idx : List Nat) : Option (List Byte) := (devOf a).map fun d => idx.map d.byteAt

/-- The length of a filled buffer, kept symbolic so that nothing evaluates the list. -/
theorem length_filled (n : Nat) (v : Byte) : (List.replicate n v).length = n := List.length_replicate

/-! ### WellFormed refuses an ill-formed term, one for each check -/

theorem test_wf_busReadSave : wellFormed ⟨0x0E#8⟩ (.busReadSave 0x0F000000#32) = false := by decide
theorem test_wf_busReadUnmapped : wellFormed ⟨0x0E#8⟩ (.busReadUnmapped 0x0E000000#32) = false := by decide
theorem test_wf_busWriteSave : wellFormed ⟨0x0E#8⟩ (.busWriteSave 0x0D000000#32 0x00#8) = false := by decide
theorem test_wf_busWriteUnmapped : wellFormed ⟨0x0E#8⟩ (.busWriteUnmapped 0x0EFFFFFF#32 0x00#8) = false := by decide
theorem test_wf_bankSelectBadAddr : wellFormed ⟨0x0E#8⟩ (.bankSelectBadAddr 0x010000#24 0x01#8) = false := by decide

/-! ### Decoding: a word of every row, written out from R80 to R84 -/

/-- The decoder at tag 0x0E on a flash device in data mode. -/
abbrev flashDecode (p : Proto) (addr : BusAddr) (v : Byte) : Decoded :=
  decode ⟨0x0E#8⟩ (.flash .data p) (.one (.write addr [v]))

theorem test_decode_busReadSave :
    decodeBus ⟨0x0E#8⟩ (.one (.read 0x0E000000#32 1)) = .accepted (.busReadSave 0x0E000000#32) := by decide
theorem test_decode_busReadUnmapped :
    decode ⟨0x0E#8⟩ .sram (.one (.read 0x0F000000#32 1)) = .accepted (.busReadUnmapped 0x0F000000#32) := by decide
theorem test_decode_busWriteSave :
    decodeBus ⟨0x0E#8⟩ (.one (.write 0x0E000010#32 [0x5A#8])) = .accepted (.busWriteSave 0x0E000010#32 0x5A#8) := by decide
theorem test_decode_busWriteUnmapped :
    decode ⟨0x0E#8⟩ .sram (.one (.write 0x0D000010#32 [0x22#8])) = .accepted (.busWriteUnmapped 0x0D000010#32 0x22#8) := by
  decide
theorem test_decode_sramRead :
    decode ⟨0x0E#8⟩ .sram (.one (.read 0x0E010000#32 1)) = .accepted (.sramRead 0x010000#24) := by decide
theorem test_decode_sramWrite :
    decode ⟨0x0E#8⟩ .sram (.one (.write 0x0E005555#32 [0xAA#8])) = .accepted (.sramWrite 0x005555#24 0xAA#8) := by decide
theorem test_decode_flashReadData :
    decode ⟨0x0E#8⟩ (.flash .data .bankChange) (.one (.read 0x0EFF0005#32 1)) = .accepted (.flashReadData 0xFF0005#24) := by
  decide
theorem test_decode_flashReadChipId :
    decode ⟨0x0E#8⟩ (.flash .chipId (.wfc .one .none)) (.one (.read 0x0E000001#32 1)) =
      .accepted (.flashReadChipId 0x000001#24) := by decide
theorem test_decode_unlock1 : flashDecode (.wfc .zero .erase) 0x0E005555#32 0xAA#8 = .accepted (.unlock1 0x00#8) := by decide
theorem test_decode_unlock2 : flashDecode (.wfc .one .none) 0x0E802AAA#32 0x55#8 = .accepted (.unlock2 0x80#8) := by decide
theorem test_decode_idEnter : flashDecode (.wfc .two .none) 0x0E005555#32 0x90#8 = .accepted (.idEnter 0x00#8) := by decide
theorem test_decode_idExit : flashDecode (.wfc .two .none) 0x0E015555#32 0xF0#8 = .accepted (.idExit 0x01#8) := by decide
theorem test_decode_eraseArm : flashDecode (.wfc .two .none) 0x0E005555#32 0x80#8 = .accepted (.eraseArm 0x00#8) := by decide
theorem test_decode_chipErase : flashDecode (.wfc .two .erase) 0x0E005555#32 0x10#8 = .accepted (.chipErase 0x00#8) := by
  decide
theorem test_decode_sectorErase :
    flashDecode (.wfc .two .erase) 0x0E003ABC#32 0x30#8 = .accepted (.sectorErase 0x003ABC#24) := by decide
theorem test_decode_programArm : flashDecode (.wfc .two .none) 0x0E005555#32 0xA0#8 = .accepted (.programArm 0x00#8) := by
  decide
theorem test_decode_bankArm : flashDecode (.wfc .two .none) 0x0EFF5555#32 0xB0#8 = .accepted (.bankArm 0xFF#8) := by decide
/-- P7 step 6: no program in the Erase context. -/
theorem test_decode_reject :
    flashDecode (.wfc .two .erase) 0x0E005555#32 0xA0#8 = .accepted (.reject 0x005555#24 0xA0#8) := by decide
/-- G6: an unlock word in the armed state is data. -/
theorem test_decode_programData :
    flashDecode .writeSingleByte 0x0E005555#32 0xAA#8 = .accepted (.programData 0x005555#24 0xAA#8) := by decide
/-- H11: bits off[23:16] are ignored. -/
theorem test_decode_bankSelect : flashDecode .bankChange 0x0E010000#32 0x01#8 = .accepted (.bankSelect 0x01#8 0x01#8) := by
  decide
theorem test_decode_bankSelectBadAddr :
    flashDecode .bankChange 0x0E005555#32 0xAA#8 = .accepted (.bankSelectBadAddr 0x005555#24 0xAA#8) := by decide
theorem test_decode_host :
    decode ⟨0x0E#8⟩ .sram (.one (.setSaveDevice (.named .eeprom4K) none)) = .accepted (.setSaveDevice (.named .eeprom4K) none) ∧
    decode ⟨0x0E#8⟩ .sram (.one .getData) = .accepted .getData ∧
    decode ⟨0x0E#8⟩ .sram (.one .getType) = .accepted .getType ∧
    decode ⟨0x0E#8⟩ .sram (.one .storageType) = .accepted .storageType ∧
    decode ⟨0x0E#8⟩ .sram (.one .snapshot) = .accepted .snapshot ∧
    decode ⟨0x0E#8⟩ .sram (.one (.restore (.sram []))) = .accepted (.restore (.sram [])) := by decide
/-- R58, R68: what the interface does not take. -/
theorem test_decode_rejected :
    decode ⟨0x0E#8⟩ .sram (.one (.read 0x0E000000#32 2)) = .rejected .wide ∧
    decode ⟨0x0E#8⟩ .sram (.one (.write 0x0E000000#32 [0x00#8, 0x01#8])) = .rejected .wide ∧
    decode ⟨0x0E#8⟩ .sram (.overlapping .getType .getType) = .rejected .overlap := by decide

/-- The table's words (R83), each to its row. -/
theorem test_table_words :
    decodeTableWord 24 0x5555AA = some (.unlock1 0x00#8) ∧ decodeTableWord 24 0x2AAA55 = some (.unlock2 0x00#8) ∧
    decodeTableWord 24 0x555590 = some (.idEnter 0x00#8) ∧ decodeTableWord 24 0x5555F0 = some (.idExit 0x00#8) ∧
    decodeTableWord 24 0x555580 = some (.eraseArm 0x00#8) ∧ decodeTableWord 24 0x555510 = some (.chipErase 0x00#8) ∧
    decodeTableWord 24 0x000030 = some (.sectorErase 0x000000#24) ∧ decodeTableWord 24 0x5555A0 = some (.programArm 0x00#8) ∧
    decodeTableWord 24 0x5555B0 = some (.bankArm 0x00#8) ∧ decodeTableWord 24 0x000000 = some (.bankSelect 0x00#8 0x00#8) := by
  decide

/-- The table's words run as the first instruction after reset: the protocol states of D1, D2, E1, E5, F1, F2, F14, G1, H1
and H7. -/
theorem test_fetch_words :
    protoOf (step (State.reset.withFetchWord 24 0x5555AA)) = some (.wfc .one .none) ∧
    protoOf (step (State.reset.withFetchWord 24 0x2AAA55)) = some (.wfc .two .none) ∧
    protoOf (step (State.reset.withFetchWord 24 0x555590)) = some (.wfc .zero .none) ∧
    codesOf (step (State.reset.withFetchWord 24 0x5555F0)) = some [.chipIdExitNotInChipId] ∧
    protoOf (step (State.reset.withFetchWord 24 0x555580)) = some (.wfc .zero .erase) ∧
    protoOf (step (State.reset.withFetchWord 24 0x555510)) = some (.wfc .zero .none) ∧
    protoOf (step (State.reset.withFetchWord 8 0x30)) = some (.wfc .zero .none) ∧
    protoOf (step (State.reset.withFetchWord 24 0x5555A0)) = some .writeSingleByte ∧
    protoOf (step (State.reset.withFetchWord 24 0x5555B0)) = some .bankChange ∧
    protoOf (step (State.reset.withFetchWord 24 0x000000)) = some (.wfc .zero .none) := by decide

/-! ### The bus and the Sram device -/

/-- A1, A9. -/
theorem test_busReadSave :
    outOf (exec (.busReadSave 0x0E000000#32) State.reset) = some ⟨some (.byte 0x00#8), []⟩ ∧
    outOf (exec (.busReadSave 0x0EFFFFFF#32) State.reset) =
      some ⟨some (.byte 0xFF#8), [⟨.sramReadOutOfRange, .devRead 0xFFFFFF#24⟩]⟩ := by decide
/-- A3, A5. -/
theorem test_busReadUnmapped :
    outOf (exec (.busReadUnmapped 0x0F000000#32) State.reset) =
      some ⟨some (.byte 0xFF#8), [⟨.unmappedRead, .busRead 0x0F000000#32⟩]⟩ ∧
    byteOf (exec (.busReadUnmapped 0xFFFFFFFF#32) State.reset) = some 0xFF#8 := by decide
/-- P5 step 1. -/
theorem test_busWriteSave :
    devOf (exec (.busWriteSave 0x0E000010#32 0x5A#8) State.reset) = some (.sram (sramWith [(0x10, 0x5A#8)])) := by decide
/-- A7: the write never reaches the flash. -/
theorem test_busWriteUnmapped :
    protoOf (exec (.busWriteUnmapped 0x0F002AAA#32 0x55#8) (fresh64 (.wfc .one .none))) = some (.wfc .one .none) ∧
    codesOf (exec (.busWriteUnmapped 0x0F002AAA#32 0x55#8) (fresh64 (.wfc .one .none))) = some [.unmappedWrite] := by decide
/-- C2, C4. -/
theorem test_sramRead :
    outOf (exec (.sramRead 0x00FFFF#24) (sramBlock [(0xFFFF, 0x01#8)])) = some ⟨some (.byte 0x01#8), []⟩ ∧
    codesOf (exec (.sramRead 0x010000#24) (sramBlock [])) = some [.sramReadOutOfRange] := by decide
/-- C6: a bit can be set; C3: offsets do not alias. -/
theorem test_sramWrite :
    devOf (exec (.sramWrite 0x000020#24 0xF0#8) (sramBlock [(0x20, 0x0F#8)])) = some (.sram (sramWith [(0x20, 0xF0#8)])) ∧
    devOf (exec (.sramWrite 0x010000#24 0x01#8) (sramBlock [])) = some (.sram (sramWith [])) := by decide

/-! ### Flash reads -/

/-- I3, I1. -/
theorem test_flashReadData :
    byteOf (exec (.flashReadData 0x000010#24)
      (flashBlock (flashWith 131072 [(0x10, 0x11#8), (0x10010, 0x22#8)] 1 .data .idle))) = some 0x22#8 ∧
    byteOf (exec (.flashReadData 0xFF0005#24) (flashBlock (flashWith 65536 [(5, 0x42#8)] 0 .data .idle))) = some 0x42#8 := by
  decide
/-- E2, E3. -/
theorem test_flashReadChipId :
    byteOf (exec (.flashReadChipId 0x000000#24) (flashBlock (flashWith 131072 [] 1 .chipId .idle))) = some 0x62#8 ∧
    byteOf (exec (.flashReadChipId 0x010001#24) (flashBlock (flashWith 65536 [] 0 .chipId .idle))) = some 0xD4#8 := by decide

/-! ### Flash commands -/

/-- D11, D5. -/
theorem test_unlock1 :
    protoOf (exec (.unlock1 0x00#8) (fresh64 (.wfc .zero .erase))) = some (.wfc .one .erase) ∧
    codesOf (exec (.unlock1 0x00#8) (fresh64 (.wfc .one .none))) = some [.rejectedCommand] := by decide
/-- D12, D3. -/
theorem test_unlock2 :
    protoOf (exec (.unlock2 0x00#8) (fresh64 (.wfc .one .erase))) = some (.wfc .two .erase) ∧
    codesOf (exec (.unlock2 0x00#8) (fresh64 (.wfc .zero .none))) = some [.rejectedCommand] := by decide
/-- E1, E7. -/
theorem test_idEnter :
    devOf (exec (.idEnter 0x00#8) (fresh64 (.wfc .two .none))) = some (.flash (flashWith 65536 [] 0 .chipId .idle)) ∧
    devOf (exec (.idEnter 0x00#8) (fresh64 (.wfc .two .erase))) =
      some (.flash (flashWith 65536 [] 0 .data (.wfc .two .erase))) := by decide
/-- E4, E5. -/
theorem test_idExit :
    nextOf (exec (.idExit 0x00#8) (flashBlock (flashWith 65536 [] 0 .chipId (.wfc .two .none)))) = some (fresh64 .idle) ∧
    codesOf (exec (.idExit 0x00#8) (fresh64 (.wfc .two .none))) = some [.chipIdExitNotInChipId] := by decide
/-- F1, F8. -/
theorem test_eraseArm :
    protoOf (exec (.eraseArm 0x00#8) (fresh64 (.wfc .two .none))) = some (.wfc .zero .erase) ∧
    codesOf (exec (.eraseArm 0x00#8) (fresh64 (.wfc .two .erase))) = some [.rejectedCommand] := by decide
/-- F3 (with a zero at the start of one bank and the end of the other), F13. -/
theorem test_chipErase :
    devOf (exec (.chipErase 0x00#8)
      (flashBlock (flashWith 131072 [(0, 0x00#8), (0x1FFFF, 0x00#8)] 0 .data (.wfc .two .erase)))) =
      some (.flash (flashWith 131072 [] 0 .data .idle)) ∧
    protoOf (exec (.chipErase 0x00#8) (fresh64 (.wfc .one .erase))) = some (.wfc .one .erase) := by decide
/-- F4, F6 (with zeros at the sector's edges). -/
theorem test_sectorErase :
    bytesAt (exec (.sectorErase 0x003FFF#24) (flashBlock (flashWith 65536
      [(0x2FFF, 0x00#8), (0x3000, 0x00#8), (0x3FFF, 0x00#8), (0x4000, 0x00#8)] 0 .data (.wfc .two .erase))))
      [0x2FFF, 0x3000, 0x3FFF, 0x4000] = some [0x00#8, 0xFF#8, 0xFF#8, 0x00#8] ∧
    bytesAt (exec (.sectorErase 0x00F000#24) (flashBlock (flashWith 131072
      [(0xF000, 0x00#8), (0x1F000, 0x00#8), (0x1FFFF, 0x00#8)] 1 .data (.wfc .two .erase))))
      [0xF000, 0x1F000, 0x1FFFF] = some [0x00#8, 0xFF#8, 0xFF#8] := by decide
/-- G1, F8. -/
theorem test_programArm :
    protoOf (exec (.programArm 0x00#8) (fresh64 (.wfc .two .none))) = some .writeSingleByte ∧
    protoOf (exec (.programArm 0x00#8) (fresh64 (.wfc .two .erase))) = some (.wfc .two .erase) := by decide
/-- H1, F8. -/
theorem test_bankArm :
    protoOf (exec (.bankArm 0x00#8) (fresh64 (.wfc .two .none))) = some .bankChange ∧
    protoOf (exec (.bankArm 0x00#8) (fresh64 (.wfc .two .erase))) = some (.wfc .two .erase) := by decide
/-- D4, F7. -/
theorem test_reject :
    devOf (exec (.reject 0x001234#24 0x00#8) (fresh64 .idle)) = some (.flash (flashWith 65536 [] 0 .data .idle)) ∧
    codesOf (exec (.reject 0x001234#24 0x10#8) (fresh64 (.wfc .two .erase))) = some [.rejectedCommand] := by decide

/-! ### Flash data phases -/

/-- G3's data write, G7. -/
theorem test_programData :
    devOf (exec (.programData 0x000123#24 0x0F#8) (flashBlock (flashWith 65536 [(0x123, 0x5A#8)] 0 .data .writeSingleByte))) =
      some (.flash (flashWith 65536 [(0x123, 0x0A#8)] 0 .data .idle)) ∧
    bytesAt (exec (.programData 0x000010#24 0x33#8) (flashBlock (flashWith 131072 [] 1 .data .writeSingleByte)))
      [0x10, 0x10010] = some [0xFF#8, 0x33#8] := by decide
/-- H2, H5. -/
theorem test_bankSelect :
    devOf (exec (.bankSelect 0x00#8 0x01#8) (flashBlock (flashWith 131072 [] 0 .data .bankChange))) =
      some (.flash (flashWith 131072 [] 1 .data .idle)) ∧
    nextOf (exec (.bankSelect 0x00#8 0xFF#8) (flashBlock (flashWith 131072 [] 1 .data .bankChange))) =
      some { flashBlock (flashWith 131072 [] 1 .data .idle) with
        out := ⟨none, [⟨.bankOutOfRange, .devWrite 0x000000#24 0xFF#8⟩]⟩ } := by decide
/-- H8, H12. -/
theorem test_bankSelectBadAddr :
    nextOf (exec (.bankSelectBadAddr 0x000001#24 0x01#8) (flashBlock (flashWith 131072 [] 0 .data .bankChange))) =
      some { flashBlock (flashWith 131072 [] 0 .data .bankChange) with
        fault := some (.bankChangeNonZeroAddress 0x0001#16 0x01#8) } ∧
    (nextOf (exec (.bankSelectBadAddr 0x000001#24 0x05#8) (fresh64 .bankChange))).map State.fault =
      some (some (.bankChangeNonZeroAddress 0x0001#16 0x05#8)) := by decide

/-! ### The host interface -/

/-- B11, B12. -/
theorem test_setSaveDevice :
    nextOf (exec (.setSaveDevice .unrecognized (some [])) (sramBlock [(7, 0x01#8)])) = some { sramBlock [] with
      out := ⟨some (.oldDevice (.sram (sramWith [(7, 0x01#8)]))),
        [⟨.unsupportedSaveType, .substitution .unrecognized (some [])⟩,
         ⟨.seedLengthMismatch, .substitution .unrecognized (some [])⟩]⟩ } ∧
    nextOf (exec (.setSaveDevice (.named .flash128K) none) (flashBlock (flashWith 131072 [] 1 .chipId .writeSingleByte))) =
      some { flashBlock (flashWith 131072 [] 0 .data .idle) with
        out := ⟨some (.oldDevice (.flash (flashWith 131072 [] 1 .chipId .writeSingleByte))), []⟩ } := by decide
/-- R200, R59: the whole buffer, in index order (on a short buffer). -/
theorem test_getData :
    outOf (exec .getData (flashBlock ⟨⟨4, [(1, 0x33#8), (3, 0x44#8)]⟩, 0, .chipId, .idle⟩)) =
      some ⟨some (.bytes [0xFF#8, 0x33#8, 0xFF#8, 0x44#8]), []⟩ := by decide
/-- J1, J3. -/
theorem test_getType :
    outOf (exec .getType State.reset) = some ⟨some (.saveType .sram), []⟩ ∧
    outOf (exec .getType (flashBlock (flashWith 131072 [] 0 .data .idle))) = some ⟨some (.saveType .flash128K), []⟩ := by decide
/-- J1, J2. -/
theorem test_storageType :
    outOf (exec .storageType State.reset) = some ⟨some (.label "SRAM (64K)"), []⟩ ∧
    outOf (exec .storageType (fresh64 .writeSingleByte)) = some ⟨some (.label "FLASH (512K)"), []⟩ := by decide
/-- R203: bank, read mode and the full protocol state are in the record (on a short buffer). -/
theorem test_snapshot :
    outOf (exec .snapshot (flashBlock ⟨⟨2, [(1, 0x33#8)]⟩, 1, .chipId, .wfc .one .erase⟩)) =
      some ⟨some (.snapshot (.flash [0xFF#8, 0x33#8] 1 .chipId (.wfc 1 .erase))), []⟩ := by decide
/-- J8, on any buffer of 65536 bytes. -/
theorem test_restore_refuses_bank (buf : List Byte) (h : buf.length = 65536) :
    exec (.restore (.flash buf 1 .data (.wfc 0 .none))) State.reset = .refused .invalidSnapshot := by
  simp [exec, execRestore, deviceOfRecord, numBanks, whenLive, State.reset, State.powerOn, h]
/-- J9. -/
theorem test_restore_refuses_length :
    exec (.restore (.sram (List.replicate 100 0x00#8))) State.reset = .refused .invalidSnapshot := rfl
/-- J7: the restored device keeps the protocol state and the read mode. -/
theorem test_restore (buf : List Byte) (h : buf.length = 65536) :
    (devOf (exec (.restore (.flash buf 0 .chipId (.wfc 1 .erase))) State.reset)).map Device.view =
      some (.flash .chipId (.wfc .one .erase)) := by
  simp [exec, execRestore, deviceOfRecord, numBanks, protoOfRecord, stepOfNumber, contextOfRecord, whenLive, State.reset,
    State.powerOn, devOf, State.install, Device.view, h]

/-! ### The step -/

/-- R6, H10, assumption 4: a presented read; a faulted block; nothing presented. -/
theorem test_step :
    byteOf (step { State.reset with pending := [readRequest 0x0E000000#32] }) = some 0x00#8 ∧
    step { State.reset with fault := some (.bankChangeNonZeroAddress 0x0001#16 0x01#8), pending := [.one .getType] } =
      .fault (.stopped (.bankChangeNonZeroAddress 0x0001#16 0x01#8)) ∧
    step State.reset = .next State.reset := ⟨by decide, rfl, rfl⟩

/-! ### Witnesses -/

/-- A Flash128K in bank 1. -/
abbrev f128 (p : Proto) : Flash := flashWith 131072 [(0x10010, 0x5A#8)] 1 .data p

/-- A flash whose bank register is beyond its buffer: not reachable (R31), and met by the out-of-range clauses. -/
abbrev fBad (p : Proto) : Flash := flashWith 65536 [] 1 .data p

/-- A block with a request presented. -/
abbrev asked (d : Device) (r : Request) : State := { block d with pending := [r] }

theorem witness_StepKeepsInvariant :
    (asked (.flash (f128 .writeSingleByte)) (writeRequest 0x0E00FFFF#32 0x00#8)).Inv ∧
    (nextOf (step (asked (.flash (f128 .writeSingleByte)) (writeRequest 0x0E00FFFF#32 0x00#8)))).isSome = true := by decide

theorem witness_OnlyBadBankAddressFaults :
    (flashBlock (f128 .bankChange)).Inv ∧
    (nextOf (exec (.busWriteSave 0x0E00FFFF#32 0x01#8) (flashBlock (f128 .bankChange)))).map State.fault =
      some (some (.bankChangeNonZeroAddress 0xFFFF#16 0x01#8)) ∧
    (sramBlock []).Inv ∧ codesOf (exec (.sramRead 0x010000#24) (sramBlock [])) = some [.sramReadOutOfRange] := by decide

theorem witness_StorageIndexesStayInsideTheBuffer :
    (flashBlock (f128 .idle)).Inv ∧ storageIndex 1 0xFFFF#16 = 131071 ∧ sectorBase 1 0xFFFF#16 + 4096 = 131072 := by decide

theorem witness_EncodedRowDecodesToItself :
    (wellFormed ⟨0x0E#8⟩ (.bankSelectBadAddr 0xFF0001#24 0x00#8) = true ∧
      rowApplies (.flash .chipId .bankChange) (.bankSelectBadAddr 0xFF0001#24 0x00#8) = true) ∧
    wellFormed ⟨0x0E#8⟩ (.busReadSave 0x0EFFFFFF#32) = true ∧ wellFormed ⟨0x0E#8⟩ (.busWriteSave 0x0E000000#32 0xFF#8) = true := by
  decide

theorem witness_DecodedRequestEncodesBack :
    decode ⟨0xFF#8⟩ (.flash .data (.wfc .two .erase)) (.one (.write 0xFFFFFFFF#32 [0x30#8])) =
      .accepted (.sectorErase 0xFFFFFF#24) := by decide

theorem witness_FlashDecodeFollowsMatchAndMask :
    (∀ row ∈ commandTable, row.states ≠ []) ∧ (∀ row ∈ commandTable, ∀ p ∈ row.states, row.takes p row.mtch = true) := by
  decide

theorem witness_OverlapAndWideAccessAreRefused :
    (asked (.sram (sramWith [])) (.one (.read 0x0E000000#32 0))).Live ∧ (0 : Nat) ≠ 1 ∧
    (asked (.sram (sramWith [])) (.one (.read 0x0E000000#32 2))).Live ∧ (2 : Nat) ≠ 1 ∧
    (asked (.sram (sramWith [])) (.one (.write 0x0E000000#32 []))).Live ∧ ([] : List Byte).length ≠ 1 ∧
    (asked (.sram (sramWith [])) (.one (.write 0x0E000000#32 [0x00#8, 0x00#8]))).Live ∧ [0x00#8, 0x00#8].length ≠ 1 ∧
    (asked (.sram (sramWith [])) (.overlapping .getData .snapshot)).Live := by decide

theorem witness_StepRunsTheDecodedInstruction :
    (asked (.flash (f128 .bankChange)) (writeRequest 0x0E000000#32 0x00#8)).Live ∧
    (asked (.flash (f128 .bankChange)) (writeRequest 0x0E000000#32 0x00#8)).pending = [writeRequest 0x0E000000#32 0x00#8] ∧
    decode ⟨0x0E#8⟩ (Device.flash (f128 .bankChange)).view (writeRequest 0x0E000000#32 0x00#8) =
      .accepted (.bankSelect 0x00#8 0x00#8) := by decide

theorem witness_FaultedBlockHasNoStep :
    { State.reset with fault := some .sectorEraseOutOfRange }.fault = some .sectorEraseOutOfRange := rfl

theorem witness_StepKeepsConfiguration :
    (nextOf (step (asked (.sram (sramWith [])) (.one .getType)))).map State.pending = some [] := by decide

theorem witness_WindowAccessIsItsDeviceRow : tagOf 0x0EFFFFFF#32 = (flashBlock (f128 .idle)).cfg.saveTag := by decide

/-- At both ends of the window and just outside it. -/
theorem witness_BusReadForwardsOrAnswersFF :
    (sramBlock []).Live ∧ tagOf 0x0E000000#32 = (sramBlock []).cfg.saveTag ∧ tagOf 0x0EFFFFFF#32 = (sramBlock []).cfg.saveTag ∧
    tagOf 0x0DFFFFFF#32 ≠ (sramBlock []).cfg.saveTag ∧ tagOf 0x0F000000#32 ≠ (sramBlock []).cfg.saveTag := by decide

theorem witness_BusWriteForwardsOrDoesNothing :
    (flashBlock (f128 .bankChange)).Live ∧ tagOf 0x0E000001#32 = (flashBlock (f128 .bankChange)).cfg.saveTag ∧
    tagOf 0x0F000000#32 ≠ (flashBlock (f128 .bankChange)).cfg.saveTag ∧
    (f128 .bankChange).write 0x000001#24 0x01#8 = .raised (.bankChangeNonZeroAddress 0x0001#16 0x01#8) ∧
    (f128 .bankChange).write 0x000000#24 0x00#8 = .done { f128 .idle with bank := 0 } [] := by decide

/-- `off` at the last byte and just beyond. -/
theorem witness_SramRead : (sramBlock []).Live ∧ (0x00FFFF#24).toNat < 65536 ∧ ¬(0x010000#24).toNat < 65536 := by decide

theorem witness_SramWrite : (sramBlock []).Live ∧ (0x00FFFF#24).toNat < 65536 ∧ 65536 ≤ (0x010000#24).toNat := by decide

theorem witness_FlashWordsAreDataOnSram : (Instr.unlock1 0xFF#8).flashWord = some (0xFF5555#24, 0xAA#8) := by decide

theorem witness_FlashDataReadReturnsStoredByte :
    (flashBlock (f128 .idle)).Live ∧ (f128 .idle).mode = .data ∧ (f128 .idle).bank * 65536 + (a16Of 0x00FFFF#24).toNat = 131071 ∧
    (fBad .idle).buf.len ≤ (fBad .idle).bank * 65536 + (a16Of 0x000000#24).toNat := by decide

theorem witness_ChipIdReadReturnsIdentification :
    (flashBlock (flashWith 65536 [] 0 .chipId .idle)).Live ∧ (flashWith 65536 [] 0 .chipId .idle).buf.len = 65536 ∧
    (flashWith 131072 [] 1 .chipId .idle).buf.len = 131072 ∧ a16Of 0x000002#24 ≠ 0#16 ∧ a16Of 0x000002#24 ≠ 1#16 := by decide

theorem witness_ReadsChangeNoState : isRead (.sramRead 0x010000#24) = true ∧ (flashBlock (f128 .writeSingleByte)).Live := by
  decide

theorem witness_ReadsDoNotSeeTheProtocolState :
    isRead (.busReadSave 0x0E000010#32) = true ∧
    (nextOf (exec (.busReadSave 0x0E000010#32) (flashBlock (f128 .writeSingleByte)))).isSome = true := by decide

theorem witness_FlashIgnoresOffsetHighBits :
    a16Of 0x015555#24 = a16Of 0x005555#24 ∧
    (nextOf (exec (.busWriteSave 0x0E015555#32 0xAA#8) (flashBlock (f128 .idle)))).isSome = true := by decide

theorem witness_UnlockAdvancesAndKeepsContext :
    (flashBlock (f128 (.wfc .zero .erase))).Live ∧ (f128 (.wfc .zero .erase)).proto = .wfc .zero .erase ∧
    (f128 (.wfc .one .none)).proto = .wfc .one .none := by decide

/-- Also for the arming commands. -/
theorem witness_ChipIdCommandsSwitchTheReadMode :
    (flashBlock (f128 (.wfc .two .none))).Live ∧ (f128 (.wfc .two .none)).proto = .wfc .two .none := by decide

theorem witness_ArmCommandsSetTheProtocolState :
    (fresh64 (.wfc .two .none)).Live ∧ (fresh64 (.wfc .two .none)).dev.view = .flash .data (.wfc .two .none) := by decide

theorem witness_ChipEraseFillsTheWholeBuffer :
    (flashBlock (f128 (.wfc .two .erase))).Live ∧ (f128 (.wfc .two .erase)).proto = .wfc .two .erase := by decide

/-- The last sector of the last bank; a sector beyond the buffer. -/
theorem witness_SectorEraseFillsOneSector :
    (flashBlock (f128 (.wfc .two .erase))).Live ∧
    (f128 (.wfc .two .erase)).bank * 65536 + (a16Of 0x00FFFF#24).toNat / 4096 * 4096 + 4096 = 131072 ∧
    (fBad (.wfc .two .erase)).buf.len < (fBad (.wfc .two .erase)).bank * 65536 + (a16Of 0x000000#24).toNat / 4096 * 4096 + 4096 := by
  decide

/-- F8: `5555/A0` in `WFC(2,Erase)`. -/
theorem witness_RejectedWriteChangesNothing :
    (fresh64 (.wfc .two .erase)).Live ∧ accepts (.wfc .two .erase) (a16Of 0x005555#24) 0xA0#8 = false ∧
    ¬(UnlockStep.two = .zero ∧ a16Of 0x005555#24 = 0x5555#16 ∧ 0xA0#8 = 0xAA#8) ∧
    ¬(UnlockStep.two = .one ∧ a16Of 0x005555#24 = 0x2AAA#16 ∧ 0xA0#8 = 0x55#8) ∧
    ¬(UnlockStep.two = .two ∧ Context.erase = .none ∧ a16Of 0x005555#24 = 0x5555#16 ∧
      (0xA0#8 = 0x90#8 ∨ 0xA0#8 = 0xF0#8 ∨ 0xA0#8 = 0x80#8 ∨ 0xA0#8 = 0xA0#8 ∨ 0xA0#8 = 0xB0#8)) ∧
    ¬(UnlockStep.two = .two ∧ Context.erase = .erase ∧ a16Of 0x005555#24 = 0x5555#16 ∧ 0xA0#8 = 0x10#8) ∧
    ¬(UnlockStep.two = .two ∧ Context.erase = .erase ∧ 0xA0#8 = 0x30#8) := by decide

theorem witness_CommandsOutsideTheirStateAreRejected :
    isCommandRow (.chipErase 0x00#8) = true ∧ (Instr.chipErase 0x00#8).flashWord = some (0x005555#24, 0x10#8) ∧
    (fresh64 (.wfc .zero .erase)).Live ∧ rowApplies (fresh64 (.wfc .zero .erase)).dev.view (.chipErase 0x00#8) = false := by
  decide

/-- Both outcomes: the context stays, and a sector erase ends it. -/
theorem witness_EraseContextEndsOnlyWithAnErase :
    replacesDevice (.sectorErase 0x003000#24) = false ∧
    protoOf (exec (.sectorErase 0x003000#24) (fresh64 (.wfc .one .erase))) = some (.wfc .one .erase) ∧
    protoOf (exec (.sectorErase 0x003000#24) (fresh64 (.wfc .two .erase))) = some (.wfc .zero .none) := by decide

theorem witness_ProgramAndsOneByte :
    (flashBlock (f128 .writeSingleByte)).Live ∧
    (f128 .writeSingleByte).bank * 65536 + (a16Of 0x00FFFF#24).toNat < (f128 .writeSingleByte).buf.len ∧
    (fBad .writeSingleByte).buf.len ≤ (fBad .writeSingleByte).bank * 65536 + (a16Of 0x000000#24).toNat := by decide

/-- The largest legal bank and the smallest illegal one. -/
theorem witness_BankSelectSetsALegalBank :
    (flashBlock (f128 .bankChange)).Live ∧ (0x01#8).toNat < (f128 .bankChange).buf.len / 65536 ∧
    (f128 .bankChange).buf.len / 65536 ≤ (0x02#8).toNat := by decide

theorem witness_BadBankAddressEntersF1 : (flashBlock (f128 .bankChange)).Live ∧ a16Of 0x000001#24 ≠ 0#16 := by decide

theorem witness_ArmedProgramCapturesEveryWord :
    (Instr.unlock2 0x00#8).flashWord = some (0x002AAA#24, 0x55#8) ∧ (f128 .writeSingleByte).proto = .writeSingleByte := by decide

theorem witness_ArmedBankSelectStopsOnOtherAddresses :
    (Instr.unlock1 0x00#8).flashWord = some (0x005555#24, 0xAA#8) ∧ (flashBlock (f128 .bankChange)).Live ∧
    a16Of 0x005555#24 ≠ 0#16 := by decide

theorem witness_FlashBitsAreSetOnlyByErase :
    replacesDevice (.programData 0x000010#24 0x0F#8) = false ∧ Proto.writeSingleByte ≠ .wfc .two .erase ∧
    devOf (exec (.programData 0x000010#24 0x0F#8) (flashBlock (f128 .writeSingleByte))) =
      some (.flash (flashWith 131072 [(0x10010, 0x0A#8)] 1 .data .idle)) := by decide

/-- The bank changes; the read mode changes; an inspection. -/
theorem witness_FlashRegistersChangeOnlyByTheirCommands :
    devOf (exec (.bankSelect 0x00#8 0x00#8) (flashBlock (f128 .bankChange))) = some (.flash { f128 .idle with bank := 0 }) ∧
    devOf (exec (.idEnter 0x00#8) (flashBlock (f128 (.wfc .two .none)))) = some (.flash { f128 .idle with mode := .chipId }) ∧
    isInspection .getType = true ∧ devOf (exec .getType (flashBlock (f128 .bankChange))) = some (.flash (f128 .bankChange)) := by
  decide

theorem witness_FaultEntryIsPrecise :
    (nextOf (exec (.programData 0x000001#24 0x00#8) (flashBlock (f128 .bankChange)))).map State.fault =
      some (some (.bankChangeNonZeroAddress 0x0001#16 0x00#8)) := by decide

theorem witness_DiagnosticsPerOperationAreBounded :
    codesOf (exec (.setSaveDevice (.named .eeprom64K) (some [])) (sramBlock [])) =
      some [.unsupportedSaveType, .seedLengthMismatch] ∧
    codesOf (exec (.sramRead 0xFFFFFF#24) (sramBlock [])) = some [.sramReadOutOfRange] := by decide

/-- An event of the decoder, of a device, and of a substitution. -/
theorem witness_EventsRecordTheirOperands :
    codesOf (exec (.busWriteUnmapped 0x0F000001#32 0x01#8) (sramBlock [])) = some [.unmappedWrite] ∧
    codesOf (exec (.reject 0x001234#24 0x00#8) (fresh64 .idle)) = some [.rejectedCommand] ∧
    codesOf (exec (.setSaveDevice .unrecognized none) (sramBlock [])) = some [.unsupportedSaveType] := by decide

theorem witness_SubstitutionSharesNoState : (sramBlock [(7, 0x01#8)]).Live ∧ (flashBlock (f128 .bankChange)).Live := by decide

theorem witness_SubstitutionBuildsSram :
    (sramBlock []).Live ∧ SaveTypeInput.named .eeprom4K ≠ .named .flash64K ∧ SaveTypeInput.named .eeprom4K ≠ .named .flash128K := by
  decide

theorem witness_SubstitutionBuildsFlash :
    (sramBlock []).Live ∧
    ((SaveTypeInput.named .flash128K = .named .flash64K ∧ 131072 = 65536) ∨
      (SaveTypeInput.named .flash128K = .named .flash128K ∧ 131072 = 131072)) ∧
    ((SaveTypeInput.named .flash64K = .named .flash64K ∧ 65536 = 65536) ∨
      (SaveTypeInput.named .flash64K = .named .flash128K ∧ 65536 = 131072)) := by decide

theorem witness_GetDataAnswersTheWholeBuffer : (sramBlock []).Live ∧ (sramBlock []).dev.length = 65536 := by decide

theorem witness_TypeAndLabelDeriveFromTheLength :
    (sramBlock []).Live ∧ (fresh64 .idle).Live ∧ (fresh64 .idle).dev.length = 65536 ∧ (f128 .idle).buf.len = 131072 ∧
    (flashWith 65535 [] 0 .data .idle).buf.len ≠ 65536 ∧ (flashWith 65535 [] 0 .data .idle).buf.len ≠ 131072 := by decide

theorem witness_IdentificationAfterSubstitution :
    (sramBlock []).Live ∧ SaveTypeInput.unrecognized ≠ .named .flash64K ∧ SaveTypeInput.unrecognized ≠ .named .flash128K := by
  decide

theorem witness_SnapshotHoldsTheDevice :
    (sramBlock []).Live ∧ (sramBlock []).dev = .sram (sramWith []) ∧ (flashBlock (f128 .bankChange)).Live ∧
    (flashBlock (f128 .bankChange)).dev = .flash (f128 .bankChange) := by decide

/-- Records at the boundaries of R205, on a flash buffer of 131072 bytes. -/
theorem records_at_boundaries (buf : List Byte) (h : buf.length = 131072) :
    recordInvalid (.sram buf) ∧ recordInvalid (.flash buf 2 .data (.wfc 0 .none)) ∧
    recordInvalid (.flash buf 1 .data (.wfc 3 .none)) ∧ recordInvalid (.flash buf 1 .data (.wfc 2 .other)) ∧
    ¬recordInvalid (.flash buf 1 .data (.wfc 2 .erase)) ∧ ¬recordInvalid (.flash buf 0 .chipId .bankChange) := by
  simp [recordInvalid, h]

/-- A record of 65536 bytes is a valid Sram record. -/
theorem sram_record_valid (buf : List Byte) (h : buf.length = 65536) : ¬recordInvalid (.sram buf) := by
  simp [recordInvalid, h]

theorem witness_RestoreRefusesInvalidRecords :
    State.reset.Live ∧ recordInvalid (.flash (List.replicate 131072 0xFF#8) 2 .data (.wfc 0 .none)) ∧
    recordInvalid (.flash (List.replicate 131072 0xFF#8) 1 .data (.wfc 3 .none)) :=
  ⟨rfl, (records_at_boundaries _ (length_filled _ _)).2.1, (records_at_boundaries _ (length_filled _ _)).2.2.1⟩

theorem witness_RestoreInstallsTheRecordedDevice :
    State.reset.Live ∧ ¬recordInvalid (.sram (List.replicate 65536 0x00#8)) ∧
    ¬recordInvalid (.flash (List.replicate 131072 0xFF#8) 1 .data (.wfc 2 .erase)) :=
  ⟨rfl, sram_record_valid _ (length_filled _ _), (records_at_boundaries _ (length_filled _ _)).2.2.2.2.1⟩

theorem witness_SnapshotThenRestoreIsTheSameDevice : (flashBlock (f128 (.wfc .one .erase))).Safe ∧ (sramBlock []).Live := by
  decide

/-- A block with several requests presented. -/
abbrev queued (f : Flash) (rs : List Request) : State := { flashBlock f with pending := rs }

/-- L1.1's sequence in bank 1, on a byte that is not erased, written out as bus records. -/
theorem witness_ProgramSequenceAndsTheByte :
    let s := queued (f128 .idle) [writeRequest 0x0E005555#32 0xAA#8, writeRequest 0x0E002AAA#32 0x55#8,
      writeRequest 0x0E005555#32 0xA0#8, writeRequest 0x0E000010#32 0x0F#8, readRequest 0x0E000010#32, .one .getType]
    s.Safe ∧ s.dev = .flash (f128 .idle) ∧ (f128 .idle).mode = .data ∧ (f128 .idle).proto = .wfc .zero .none ∧
    s.pending = s.cmd 0xA0#8 ++ s.sb 0x0010#16 0x0F#8 ::
      .one (.read (windowAddr s.cfg.saveTag (flashOff 0#8 0x0010#16)) 1) :: [.one .getType] := by decide

/-- L1.2's sequence, written out as bus records. -/
theorem witness_ChipEraseSequenceErasesEveryByte :
    let s := queued (f128 .idle) [writeRequest 0x0E005555#32 0xAA#8, writeRequest 0x0E002AAA#32 0x55#8,
      writeRequest 0x0E005555#32 0x80#8, writeRequest 0x0E005555#32 0xAA#8, writeRequest 0x0E002AAA#32 0x55#8,
      writeRequest 0x0E005555#32 0x10#8]
    s.Safe ∧ s.dev = .flash (f128 .idle) ∧ (f128 .idle).proto = .wfc .zero .none ∧
    s.pending = s.cmd 0x80#8 ++ s.cmd 0x10#8 ++ [] := by decide

/-- L1.3's sequence at 0xFFFF, the last sector of bank 1, written out as bus records. -/
theorem witness_SectorEraseSequenceErasesOneSector :
    let s := queued (f128 .idle) [writeRequest 0x0E005555#32 0xAA#8, writeRequest 0x0E002AAA#32 0x55#8,
      writeRequest 0x0E005555#32 0x80#8, writeRequest 0x0E005555#32 0xAA#8, writeRequest 0x0E002AAA#32 0x55#8,
      writeRequest 0x0E00FFFF#32 0x30#8]
    s.Safe ∧ s.dev = .flash (f128 .idle) ∧ (f128 .idle).proto = .wfc .zero .none ∧
    s.pending = s.cmd 0x80#8 ++ [s.sb 0x5555#16 0xAA#8, s.sb 0x2AAA#16 0x55#8, s.sb 0xFFFF#16 0x30#8] ++ [] := by decide

/-- L1.4's sequence with the largest legal bank, written out as bus records. -/
theorem witness_BankSequenceMovesTheReadWindow :
    let s := queued { f128 .idle with bank := 0 } [writeRequest 0x0E005555#32 0xAA#8, writeRequest 0x0E002AAA#32 0x55#8,
      writeRequest 0x0E005555#32 0xB0#8, writeRequest 0x0E000000#32 0x01#8, readRequest 0x0E000010#32]
    s.Safe ∧ s.dev = .flash { f128 .idle with bank := 0 } ∧ (f128 .idle).mode = .data ∧
    (f128 .idle).proto = .wfc .zero .none ∧ (0x01#8).toNat < (f128 .idle).buf.len / 65536 ∧
    s.pending = s.cmd 0xB0#8 ++ s.sb 0#16 0x01#8 ::
      .one (.read (windowAddr s.cfg.saveTag (flashOff 0#8 0x0010#16)) 1) :: [] := by decide

end Sys2Proof.Tests
end

section
/-! PROOFS. The block's state (spec/10_state.md): power-on, reads change no state, and a substituted device shares nothing
with the one before it. -/

namespace Sys2Proof.Machine

/-! ### Reads -/

/-- `read_byte` answers with one read reply, inside the save window and outside it (R100). -/
theorem State.busRead_eq_reply (s : State) (addr : BusAddr) : ∃ r : ReadReply, s.busRead addr = s.reply r := by
  unfold State.busRead
  split
  · exact ⟨_, rfl⟩
  · exact ⟨_, rfl⟩

/-- Every read row, behind the guard, does nothing but answer with one read reply (R30). -/
theorem exec_eq_reply_of_isRead {i : Instr} (h : isRead i = true) (s : State) :
    ∃ r : ReadReply, exec i s = whenLive s (s.reply r) := by
  cases i with
  | busReadSave addr =>
    obtain ⟨r, hr⟩ := s.busRead_eq_reply addr
    exact ⟨r, by rw [exec_busReadSave, hr]⟩
  | busReadUnmapped addr =>
    obtain ⟨r, hr⟩ := s.busRead_eq_reply addr
    exact ⟨r, by rw [exec_busReadUnmapped, hr]⟩
  | sramRead off => exact ⟨_, exec_sramRead off s⟩
  | flashReadData off => exact ⟨_, exec_flashReadData off s⟩
  | flashReadChipId off => exact ⟨_, exec_flashReadChipId off s⟩
  | _ => cases h

/-- Settles O22: on a live block a read row is its read reply, and a reply writes `out` only. -/
theorem readsChangeNoState : Obligations.ReadsChangeNoState := by
  intro i s hread hlive
  obtain ⟨r, hr⟩ := exec_eq_reply_of_isRead hread s
  exact ⟨r.byte, r.diags, hr.trans (whenLive_of_live hlive _)⟩

/-! ### Power-on -/

/-- The power-on device is an Sram device over 65536 bytes of the default fill (R34). -/
theorem State.powerOn_dev (cfg : Config) : (State.powerOn cfg).dev = .sram { buf := Memory.filled 65536 } := rfl

/-- Settles O1: the default fill of an Sram buffer is 0x00. -/
theorem powerOnIsZeroFilledSram : Obligations.PowerOnIsZeroFilledSram :=
  ⟨fun cfg => ⟨_, State.powerOn_dev cfg, Memory.len_filled _, Memory.read_filled .sram _, rfl⟩,
    Config.testVectors, rfl⟩

/-! ### Substitution -/

/-- Settles O49: each block holds the device built from the type and the seed, whatever it held before. -/
theorem substitutionSharesNoState : Obligations.SubstitutionSharesNoState := by
  intro s u t seed hs hu
  exact ⟨_, _, exec_setSaveDevice hs t seed, exec_setSaveDevice hu t seed, rfl⟩

end Sys2Proof.Machine
end

section
/-! PROOFS. The memory map (spec/40_memory_map.md): what a bus access does inside the save window and outside it. -/

namespace Sys2Proof.Machine

/-! ### `read_byte` -/

/-- With the save tag, `read_byte` is the device's read at `addr[23:0]` (R100). -/
theorem State.busRead_of_tag_eq {s : State} {addr : BusAddr} (h : tagOf addr = s.cfg.saveTag) :
    s.busRead addr = s.reply (s.dev.read (offOf addr)) := if_pos ((inWindow_iff s addr).mpr h)

/-- With any other tag, `read_byte` does not reach the device (R100). -/
theorem State.busRead_of_tag_ne {s : State} {addr : BusAddr} (h : tagOf addr ≠ s.cfg.saveTag) :
    s.busRead addr = s.unmappedRead addr := if_neg (mt (inWindow_iff s addr).mp h)

/-- Settles O15: on a live block both read rows are `read_byte`, and the tag decides which of its halves answers. The
event W3 records the address of the read. -/
theorem busReadForwardsOrAnswersFF : Obligations.BusReadForwardsOrAnswersFF := by
  intro s addr hlive
  constructor
  · intro htag
    rw [exec_busReadSave, whenLive_of_live hlive, State.busRead_of_tag_eq htag]
    rfl
  · intro htag
    refine ⟨.busRead addr, ?_⟩
    rw [exec_busReadUnmapped, whenLive_of_live hlive, State.busRead_of_tag_ne htag]
    rfl

end Sys2Proof.Machine
end

section
/-! PROOFS. The Sram device (spec/41_sram.md): a read and a write on each side of the device's 65536 bytes. -/

namespace Sys2Proof.Machine

/-! ### The device's operations -/

theorem Sram.read_of_lt (d : Sram) {off : Offset} (h : off.toNat < 65536) :
    d.read off = ⟨d.buf.read .sram off.toNat, []⟩ := if_pos h

theorem Sram.read_of_not_lt (d : Sram) {off : Offset} (h : ¬ off.toNat < 65536) :
    d.read off = ⟨0xFF#8, [⟨.sramReadOutOfRange, .devRead off⟩]⟩ := if_neg h

theorem Sram.write_of_lt (d : Sram) {off : Offset} (v : Byte) (h : off.toNat < 65536) :
    d.write off v = .done { buf := d.buf.write .sram off.toNat v } [] := if_pos h

theorem Sram.write_of_le (d : Sram) {off : Offset} (v : Byte) (h : 65536 ≤ off.toNat) :
    d.write off v = .done d [⟨.sramWriteOutOfRange, .devWrite off v⟩] := if_neg (Nat.not_lt.mpr h)

/-! ### The rows on a live block that holds an Sram device -/

section SramBlock

variable {s : State} {d : Sram}

/-- SRAM_READ answers the reply of the Sram device's own read (R120). -/
theorem exec_sramRead_of_sram (hlive : s.fault = none) (hd : s.dev = .sram d) (off : Offset) :
    exec (.sramRead off) s = s.reply (d.read off) := by
  rw [exec_sramRead, whenLive_of_live hlive, hd]
  rfl

/-- SRAM_WRITE commits the effect of the Sram device's own write (R121). -/
theorem exec_sramWrite_of_sram (hlive : s.fault = none) (hd : s.dev = .sram d) (off : Offset) (v : Byte) :
    exec (.sramWrite off v) s = s.commit ((d.write off v).map .sram) := by
  rw [exec_sramWrite, whenLive_of_live hlive, hd]
  rfl

/-- Putting the device a state already holds back into it changes nothing but what is put out. -/
theorem State.install_of_dev_eq {x : Device} (h : s.dev = x) (o : Output) : s.install x o = { s with out := o } := by
  subst h
  rfl

end SramBlock

/-- Settles O17: the reply is the device's own read, and W1 records the offset of the read. -/
theorem sramReadReturnsByteOrSentinel : Obligations.SramReadReturnsByteOrSentinel := by
  intro s d off hlive hd
  refine ⟨.devRead off, ?_⟩
  rw [exec_sramRead_of_sram hlive hd]
  by_cases h : off.toNat < 65536
  · rw [Sram.read_of_lt d h, if_pos h]
    rfl
  · rw [Sram.read_of_not_lt d h, if_neg h]
    rfl

/-- Settles O18: in range the new buffer is the old one with one byte written (`Memory.read_write`); out of range the device
is put back as it was, and W2 records the write. -/
theorem sramWriteStoresByteOrDoesNothing : Obligations.SramWriteStoresByteOrDoesNothing := by
  intro s d off v hlive hd
  rw [exec_sramWrite_of_sram hlive hd]
  constructor
  · intro h
    refine ⟨d.buf.write .sram off.toNat v, ?_, Memory.len_write .., Memory.read_write .sram d.buf off.toNat v⟩
    rw [Sram.write_of_lt d v h]
    rfl
  · intro h
    refine ⟨.devWrite off v, ?_⟩
    rw [Sram.write_of_le d v h, ← State.install_of_dev_eq hd]
    rfl

end Sys2Proof.Machine
end

section
/-! PROOFS. The flash data phases (spec/43_flash_data_phase.md): PROGRAM_DATA on each side of the buffer's end. -/

namespace Sys2Proof.Machine

/-! ### Programming one byte -/

section ProgramData

variable {f : Flash} {off : Offset}

/-- Inside the buffer the byte is programmed by bitwise-AND and the device is disarmed (R160). -/
theorem Flash.programData_of_lt (v : Byte) (h : storageIndex f.bank (a16Of off) < f.buf.len) :
    f.programData off v =
      .done { f with
        buf := f.buf.write .flash (storageIndex f.bank (a16Of off))
          (f.buf.read .flash (storageIndex f.bank (a16Of off)) &&& v)
        proto := .idle } [] := if_neg (Nat.not_le.mpr h)

/-- Beyond the buffer nothing is programmed and the device stays armed (R161). -/
theorem Flash.programData_of_le (v : Byte) (h : f.buf.len ≤ storageIndex f.bank (a16Of off)) :
    f.programData off v = .done f [⟨.programOutOfRange, .devWrite off v⟩] := if_pos h

/-- In `WSB` the PROGRAM_DATA row commits the device's own programming effect. -/
theorem exec_programData_of_armed {s : State} (hlive : s.fault = none) (hd : s.dev = .flash f)
    (hp : f.proto = .writeSingleByte) (off : Offset) (v : Byte) :
    exec (.programData off v) s = s.commit ((f.programData off v).map .flash) := by
  rw [exec_flashWord rfl, whenLive_of_live hlive, hd, ← Flash.write_programData hp]
  rfl

end ProgramData

/-- Settles O33: inside the buffer the new buffer is the old one with one byte written, the AND (`Memory.read_write`); beyond
it the device is put back as it was, still armed, and W8 records the write. -/
theorem programAndsOneByte : Obligations.ProgramAndsOneByte := by
  intro s f off v hlive hd hp idx
  rw [exec_programData_of_armed hlive hd hp]
  constructor
  · intro h
    refine ⟨f.buf.write .flash idx (f.buf.read .flash idx &&& v), ?_, Memory.len_write .., Memory.read_write .flash f.buf idx _⟩
    rw [Flash.programData_of_lt v h]
    rfl
  · intro h
    refine ⟨.devWrite off v, ?_⟩
    rw [Flash.programData_of_le v h, ← State.install_of_dev_eq hd]
    rfl

end Sys2Proof.Machine
end

section
/-! PROOFS. Flash reads (spec/44_flash_reads.md): a data-mode read on each side of the buffer's end, and a chip-ID read at
each of the two identification offsets and elsewhere. -/

namespace Sys2Proof.Machine

/-! ### The device's operations -/

/-- A chip-ID read emits nothing; it answers from the offset's low 16 bits and the buffer's length only (R183). -/
theorem Flash.readChipId_eq (f : Flash) (off : Offset) :
    f.readChipId off =
      ⟨if a16Of off = 0#16 then manufacturerId f.buf.len else if a16Of off = 1#16 then deviceId f.buf.len else 0x00#8,
        []⟩ := by
  unfold Flash.readChipId
  split
  · rfl
  · split <;> rfl

section FlashRead

variable {f : Flash} {off : Offset}

/-- Inside the buffer a data-mode read is the stored byte (R181). -/
theorem Flash.readData_of_lt (h : storageIndex f.bank (a16Of off) < f.buf.len) :
    f.readData off = ⟨f.buf.read .flash (storageIndex f.bank (a16Of off)), []⟩ := if_neg (Nat.not_le.mpr h)

/-- Beyond the buffer a data-mode read is 0xFF with W11 (R182). -/
theorem Flash.readData_of_le (h : f.buf.len ≤ storageIndex f.bank (a16Of off)) :
    f.readData off = ⟨0xFF#8, [⟨.flashReadOutOfRange, .devRead off⟩]⟩ := if_pos h

theorem Flash.read_of_data (hm : f.mode = .data) (off : Offset) : f.read off = f.readData off := by
  simp only [Flash.read, hm]

theorem Flash.read_of_chipId (hm : f.mode = .chipId) (off : Offset) : f.read off = f.readChipId off := by
  simp only [Flash.read, hm]

end FlashRead

/-! ### The identification pair (R184) -/

theorem manufacturerId_flash64K : manufacturerId 65536 = 0xBF#8 := rfl

theorem deviceId_flash64K : deviceId 65536 = 0xD4#8 := rfl

theorem manufacturerId_flash128K : manufacturerId 131072 = 0x62#8 := rfl

theorem deviceId_flash128K : deviceId 131072 = 0x13#8 := rfl

/-! ### The rows on a live block that holds a flash device -/

section FlashBlock

variable {s : State} {f : Flash}

/-- In data mode FLASH_READ_DATA answers the reply of the device's data read (R180). -/
theorem exec_flashReadData_of_data (hlive : s.fault = none) (hd : s.dev = .flash f) (hm : f.mode = .data) (off : Offset) :
    exec (.flashReadData off) s = s.reply (f.readData off) := by
  rw [exec_flashReadData, whenLive_of_live hlive, hd, ← Flash.read_of_data hm]
  rfl

/-- In chip-ID mode FLASH_READ_CHIPID answers the reply of the device's identification read (R180). -/
theorem exec_flashReadChipId_of_chipId (hlive : s.fault = none) (hd : s.dev = .flash f) (hm : f.mode = .chipId)
    (off : Offset) : exec (.flashReadChipId off) s = s.reply (f.readChipId off) := by
  rw [exec_flashReadChipId, whenLive_of_live hlive, hd, ← Flash.read_of_chipId hm]
  rfl

end FlashBlock

/-- Settles O20: the reply is the device's own data read, the buffer's length decides which of its halves answers, and W11
records the offset of the read. -/
theorem flashDataReadReturnsStoredByte : Obligations.FlashDataReadReturnsStoredByte := by
  intro s f off hlive hd hm
  refine ⟨.devRead off, ?_⟩
  rw [exec_flashReadData_of_data hlive hd hm]
  by_cases h : f.buf.len ≤ f.bank * 65536 + (a16Of off).toNat
  · rw [Flash.readData_of_le h, if_pos h]
    rfl
  · rw [Flash.readData_of_lt (Nat.not_le.mp h), if_neg h]
    rfl

/-- Settles O21: the reply is the device's own identification read, whose pair is R184's row of the buffer's length. -/
theorem chipIdReadReturnsIdentification : Obligations.ChipIdReadReturnsIdentification := by
  intro s f off hlive hd hm
  rw [exec_flashReadChipId_of_chipId hlive hd hm, Flash.readChipId_eq]
  refine ⟨fun hlen => ?_, fun hlen => ?_, fun h0 h1 => ?_⟩
  · rw [hlen, manufacturerId_flash64K, deviceId_flash64K]
    rfl
  · rw [hlen, manufacturerId_flash128K, deviceId_flash128K]
    rfl
  · rw [if_neg h0, if_neg h1]
    rfl

end Sys2Proof.Machine
end

section
/-! PROOFS. The host interface (spec/45_host_interface.md): the raw buffer view, and the identification of the device that
`set_save_device` builds. -/

namespace Sys2Proof.Machine

/-! ### The raw buffer view (R200) -/

@[simp] theorem Device.length_bytes (d : Device) : d.bytes.length = d.length := by
  cases d with
  | sram x => exact Memory.length_bytes .sram x.buf
  | flash f => exact Memory.length_bytes .flash f.buf

theorem Device.getElem_bytes (d : Device) (i : Nat) (h : i < d.bytes.length) : d.bytes[i] = d.byteAt i := by
  cases d with
  | sram x => exact Memory.getElem_bytes .sram x.buf i h
  | flash f => exact Memory.getElem_bytes .flash f.buf i h

/-- GET_DATA answers the bytes of the device's buffer. -/
theorem exec_getData {s : State} (hlive : s.fault = none) :
    exec .getData s = .next { s with out := ⟨some (.bytes s.dev.bytes), []⟩ } := whenLive_of_live hlive _

/-- Settles O46: the view is the device's bytes, whose length and elements are those of the buffer. -/
theorem getDataAnswersTheWholeBuffer : Obligations.GetDataAnswersTheWholeBuffer := by
  intro s hlive
  exact ⟨s.dev.bytes, exec_getData hlive, s.dev.length_bytes, s.dev.getElem_bytes⟩

/-! ### Type and label (R201, R202) -/

/-- The device reports type `t` and label `l`, with no diagnostic and no fault. -/
def Device.IdentifiesAs (d : Device) (t : SaveType) (l : String) : Prop :=
  d.saveType = .done t [] ∧ d.label = .done l []

theorem Device.identifiesAs_sram (d : Sram) : (Device.sram d).IdentifiesAs .sram "SRAM (64K)" := ⟨rfl, rfl⟩

theorem Device.identifiesAs_flash64K {f : Flash} (h : f.buf.len = 65536) :
    (Device.flash f).IdentifiesAs .flash64K "FLASH (512K)" := by
  simp [Device.IdentifiesAs, Device.saveType, Device.label, flashType, flashLabel, h]

theorem Device.identifiesAs_flash128K {f : Flash} (h : f.buf.len = 131072) :
    (Device.flash f).IdentifiesAs .flash128K "FLASH (1M)" := by
  simp [Device.IdentifiesAs, Device.saveType, Device.label, flashType, flashLabel, h]

/-- On a live block GET_TYPE and STORAGE_TYPE put out what the device reports, and write `out` only. -/
theorem exec_identification {s : State} {t : SaveType} {l : String} (hlive : s.fault = none)
    (h : s.dev.IdentifiesAs t l) :
    exec .getType s = .next { s with out := ⟨some (.saveType t), []⟩ } ∧
    exec .storageType s = .next { s with out := ⟨some (.label l), []⟩ } := by
  obtain ⟨htype, hlabel⟩ := h
  have hget : exec .getType s = s.answer (s.dev.saveType.map .saveType) := whenLive_of_live hlive _
  have hstorage : exec .storageType s = s.answer (s.dev.label.map .label) := whenLive_of_live hlive _
  rw [hget, hstorage, htype, hlabel]
  exact ⟨rfl, rfl⟩

/-! ### The device that substitution builds (R104 to R106) -/

theorem buildSram_eq_sram (seed : Option (List Byte)) : ∃ d, (buildSram seed).1 = .sram d ∧ d.buf.len = 65536 :=
  ⟨_, rfl, (seeded_wf .sram seed 65536).2⟩

theorem buildFlash_eq_flash (seed : Option (List Byte)) (n : Nat) :
    ∃ f, (buildFlash seed n).1 = .flash f ∧ f.buf.len = n := ⟨_, rfl, (seeded_wf .flash seed n).2⟩

/-- Every type but the two flash types builds an Sram device (R105, R107). -/
theorem buildDevice_of_ne_flash {t : SaveTypeInput} (h64 : t ≠ .named .flash64K) (h128 : t ≠ .named .flash128K)
    (seed : Option (List Byte)) : buildDevice t seed = buildSram seed := by
  rcases t with (_ | _ | _ | _ | _ | _) | _
  case named.flash64K => exact absurd rfl h64
  case named.flash128K => exact absurd rfl h128
  all_goals rfl

/-- Settles O48: the type decides which device is built and how long its buffer is, whatever the seed, and the device
decides the identification. -/
theorem identificationAfterSubstitution : Obligations.IdentificationAfterSubstitution := by
  intro s t seed hlive
  refine ⟨_, exec_setSaveDevice hlive t seed, ?_, ?_, ?_⟩
  · rintro rfl
    obtain ⟨f, hf, hlen⟩ := buildFlash_eq_flash seed 65536
    exact ⟨⟨f, hf, hlen⟩, exec_identification hlive (hf ▸ Device.identifiesAs_flash64K hlen)⟩
  · rintro rfl
    obtain ⟨f, hf, hlen⟩ := buildFlash_eq_flash seed 131072
    exact ⟨⟨f, hf, hlen⟩, exec_identification hlive (hf ▸ Device.identifiesAs_flash128K hlen)⟩
  · intro h64 h128
    obtain ⟨d, hd, hlen⟩ := buildSram_eq_sram seed
    rw [buildDevice_of_ne_flash h64 h128]
    exact ⟨⟨d, hd, hlen⟩, exec_identification hlive (hd ▸ Device.identifiesAs_sram d)⟩

end Sys2Proof.Machine
end

section
/-! PROOFS. Decoding (spec/30_encoding.md): the window requests, what a flash write decodes to, and that encoding and decoding
are inverse to each other. -/

namespace Sys2Proof

open Machine

/-! ### Requests inside the save window -/

/-- A one-byte read with the save tag is decoded by the device (R84). -/
theorem decode_readRequest_of_tag {cfg : Config} {addr : BusAddr} (h : tagOf addr = cfg.saveTag) (view : DeviceView) :
    decode cfg view (readRequest addr) = .accepted (decodeDeviceRead view (offOf addr)) := by
  simp [decode, decodeBus, readRequest, h, refine]

/-- A one-byte write with the save tag is decoded by the device (R84). -/
theorem decode_writeRequest_of_tag {cfg : Config} {addr : BusAddr} (h : tagOf addr = cfg.saveTag) (view : DeviceView)
    (v : Byte) : decode cfg view (writeRequest addr v) = .accepted (decodeDeviceWrite view (offOf addr) v) := by
  simp [decode, decodeBus, writeRequest, h, refine]

/-- A one-byte read with any other tag is the unmapped read (R84). -/
theorem decode_readRequest_of_tag_ne {cfg : Config} {addr : BusAddr} (h : tagOf addr ≠ cfg.saveTag) (view : DeviceView) :
    decode cfg view (readRequest addr) = .accepted (.busReadUnmapped addr) := by
  simp [decode, decodeBus, readRequest, h, refine]

/-- A one-byte write with any other tag is the unmapped write (R84). -/
theorem decode_writeRequest_of_tag_ne {cfg : Config} {addr : BusAddr} (h : tagOf addr ≠ cfg.saveTag) (view : DeviceView)
    (v : Byte) : decode cfg view (writeRequest addr v) = .accepted (.busWriteUnmapped addr v) := by
  simp [decode, decodeBus, writeRequest, h, refine]

@[simp] theorem decode_readRequest_window (cfg : Config) (view : DeviceView) (off : Offset) :
    decode cfg view (readRequest (windowAddr cfg.saveTag off)) = .accepted (decodeDeviceRead view off) := by
  simp [decode_readRequest_of_tag]

@[simp] theorem decode_writeRequest_window (cfg : Config) (view : DeviceView) (off : Offset) (v : Byte) :
    decode cfg view (writeRequest (windowAddr cfg.saveTag off) v) = .accepted (decodeDeviceWrite view off v) := by
  simp [decode_writeRequest_of_tag]

/-! ### Flash command rows -/

/-- A flash command row is carried by the save-window write of its word (R82). -/
theorem encode_flashWord {i : Instr} {off : Offset} {v : Byte} (h : i.flashWord = some (off, v)) (cfg : Config) :
    encode cfg i = writeRequest (windowAddr cfg.saveTag off) v := by
  cases i <;> simp only [Instr.flashWord, reduceCtorEq, Option.some.injEq, Prod.mk.injEq] at h <;>
    obtain ⟨rfl, rfl⟩ := h <;> rfl

/-- A flash row that applies applies on a flash device. -/
theorem exists_flash_of_rowApplies {i : Instr} {w : Offset × Byte} {view : DeviceView} (h : i.flashWord = some w)
    (happ : rowApplies view i = true) : ∃ m p, view = .flash m p := by
  cases view with
  | flash m p => exact ⟨m, p, rfl⟩
  | sram => cases i <;> simp [Instr.flashWord] at h <;> simp [rowApplies, DeviceView.proto?] at happ

/-- In a protocol state that lists it, the word of a well-formed row is decoded to that row (R83). -/
theorem decodeFlashWrite_of_rowApplies {cfg : Config} {i : Instr} {off : Offset} {v : Byte} {m : ReadMode} {p : Proto}
    (hw : i.flashWord = some (off, v)) (hwf : wellFormed cfg i = true) (happ : rowApplies (.flash m p) i = true) :
    decodeFlashWrite p off v = i := by
  cases i <;> simp only [Instr.flashWord, reduceCtorEq, Option.some.injEq, Prod.mk.injEq] at hw <;>
    obtain ⟨rfl, rfl⟩ := hw <;> simp [rowApplies, DeviceView.proto?] at happ
  case unlock1 => rcases happ with rfl | rfl <;> simp [decodeFlashWrite]
  case unlock2 => rcases happ with rfl | rfl <;> simp [decodeFlashWrite]
  case reject => exact happ
  case bankSelectBadAddr =>
    subst happ
    simpa [wellFormed, decodeFlashWrite] using hwf
  all_goals
    subst happ
    simp [decodeFlashWrite]

/-- The word of the row that a flash write decodes to is that write: no bit is dropped (R82). -/
theorem flashWord_decodeFlashWrite (p : Proto) (off : Offset) (v : Byte) :
    (decodeFlashWrite p off v).flashWord = some (off, v) := by
  fun_cases decodeFlashWrite p off v <;> simp_all [Instr.flashWord, eq_flashOff_of_a16]

/-- BANK_SELECT_BADADDR is decoded at nonzero flash addresses only; no other flash row can be ill-formed. -/
theorem wellFormed_decodeFlashWrite (cfg : Config) (p : Proto) (off : Offset) (v : Byte) :
    wellFormed cfg (decodeFlashWrite p off v) = true := by
  fun_cases decodeFlashWrite p off v
  case case16 h => simpa [wellFormed] using h
  all_goals rfl

/-- A flash write decodes to a row of the current protocol state (R83). -/
theorem rowApplies_decodeFlashWrite (m : ReadMode) (p : Proto) (off : Offset) (v : Byte) :
    rowApplies (.flash m p) (decodeFlashWrite p off v) = true := by
  by_cases hr : decodeFlashWrite p off v = .reject off v
  · rw [hr]
    simpa [rowApplies, DeviceView.proto?] using hr
  · revert hr
    fun_cases decodeFlashWrite p off v <;> intro hr
    case case1 c _ => cases c <;> rfl
    case case3 c _ => cases c <;> rfl
    case case2 | case4 | case10 | case13 => exact absurd rfl hr
    all_goals rfl

/-! ### The device rows -/

/-- What the device level decodes a read to is a read row of that device, and the row's request is that read. -/
theorem decodeDeviceRead_spec (cfg : Config) (view : DeviceView) (off : Offset) :
    encode cfg (decodeDeviceRead view off) = readRequest (windowAddr cfg.saveTag off) ∧
    wellFormed cfg (decodeDeviceRead view off) = true ∧ rowApplies view (decodeDeviceRead view off) = true := by
  rcases view with _ | ⟨_ | _, p⟩ <;> exact ⟨rfl, rfl, rfl⟩

/-- What the device level decodes a write to is a write row of that device, and the row's request is that write. -/
theorem decodeDeviceWrite_spec (cfg : Config) (view : DeviceView) (off : Offset) (v : Byte) :
    encode cfg (decodeDeviceWrite view off v) = writeRequest (windowAddr cfg.saveTag off) v ∧
    wellFormed cfg (decodeDeviceWrite view off v) = true ∧ rowApplies view (decodeDeviceWrite view off v) = true := by
  cases view with
  | sram => exact ⟨rfl, rfl, rfl⟩
  | flash m p =>
    exact ⟨encode_flashWord (flashWord_decodeFlashWrite p off v) cfg, wellFormed_decodeFlashWrite cfg p off v,
      rowApplies_decodeFlashWrite m p off v⟩

/-! ### The round trips -/

/-- Settles O6: a flash command row is the row its word decodes to; a read row, an Sram row or a bus row is fixed by direction,
tag and device; a host row is its own request. -/
theorem encodedRowDecodesToItself : Obligations.EncodedRowDecodesToItself := by
  intro cfg view i hwf
  constructor
  · intro happ hread hwrite
    cases hw : i.flashWord with
    | some w =>
      obtain ⟨m, p, rfl⟩ := exists_flash_of_rowApplies hw happ
      rw [encode_flashWord hw, decode_writeRequest_window]
      exact congrArg _ (decodeFlashWrite_of_rowApplies hw hwf happ)
    | none =>
      cases i <;> simp only [Instr.flashWord, reduceCtorEq] at hw
      case busReadSave addr => exact absurd rfl (hread addr)
      case busWriteSave addr v => exact absurd rfl (hwrite addr v)
      case busReadUnmapped addr => exact decode_readRequest_of_tag_ne (by simpa [wellFormed] using hwf) view
      case busWriteUnmapped addr v => exact decode_writeRequest_of_tag_ne (by simpa [wellFormed] using hwf) view v
      case sramRead off =>
        obtain rfl : view = .sram := by simpa [rowApplies] using happ
        exact decode_readRequest_window cfg .sram off
      case sramWrite off v =>
        obtain rfl : view = .sram := by simpa [rowApplies] using happ
        exact decode_writeRequest_window cfg .sram off v
      case flashReadData off =>
        rcases view with _ | ⟨_ | _, p⟩ <;> simp [rowApplies, DeviceView.mode?] at happ
        exact decode_readRequest_window cfg (.flash .data p) off
      case flashReadChipId off =>
        rcases view with _ | ⟨_ | _, p⟩ <;> simp [rowApplies, DeviceView.mode?] at happ
        exact decode_readRequest_window cfg (.flash .chipId p) off
      all_goals rfl
  · rintro (⟨addr, rfl⟩ | ⟨addr, v, rfl⟩) <;> simp only [wellFormed, beq_iff_eq] at hwf
    · simp [encode, readRequest, decodeBus, hwf]
    · simp [encode, writeRequest, decodeBus, hwf]

/-- What a request decodes to encodes back to it, and is a well-formed row that the device state lists. -/
def DecodesFaithfully (cfg : Config) (view : DeviceView) (r : Request) : Prop :=
  ∀ i : Instr, decode cfg view r = .accepted i → encode cfg i = r ∧ wellFormed cfg i = true ∧ rowApplies view i = true

theorem decodesFaithfully_readRequest (cfg : Config) (view : DeviceView) (addr : BusAddr) :
    DecodesFaithfully cfg view (readRequest addr) := by
  intro i h
  by_cases htag : tagOf addr = cfg.saveTag
  · obtain rfl := Decoded.accepted.inj ((decode_readRequest_of_tag htag view).symm.trans h)
    have hspec := decodeDeviceRead_spec cfg view (offOf addr)
    rwa [← htag, windowAddr_tag_off] at hspec
  · obtain rfl := Decoded.accepted.inj ((decode_readRequest_of_tag_ne htag view).symm.trans h)
    exact ⟨rfl, by simpa [wellFormed] using htag, rfl⟩

theorem decodesFaithfully_writeRequest (cfg : Config) (view : DeviceView) (addr : BusAddr) (v : Byte) :
    DecodesFaithfully cfg view (writeRequest addr v) := by
  intro i h
  by_cases htag : tagOf addr = cfg.saveTag
  · obtain rfl := Decoded.accepted.inj ((decode_writeRequest_of_tag htag view v).symm.trans h)
    have hspec := decodeDeviceWrite_spec cfg view (offOf addr) v
    rwa [← htag, windowAddr_tag_off] at hspec
  · obtain rfl := Decoded.accepted.inj ((decode_writeRequest_of_tag_ne htag view v).symm.trans h)
    exact ⟨rfl, by simpa [wellFormed] using htag, rfl⟩

/-- A bus access that is not one byte wide is rejected (R58). -/
theorem decode_wide_read (cfg : Config) (view : DeviceView) (addr : BusAddr) {n : Nat} (h : n ≠ 1) :
    decode cfg view (.one (.read addr n)) = .rejected .wide := by
  simp [decode, decodeBus, h]

theorem decode_wide_write (cfg : Config) (view : DeviceView) (addr : BusAddr) {data : List Byte} (h : data.length ≠ 1) :
    decode cfg view (.one (.write addr data)) = .rejected .wide := by
  rcases data with _ | ⟨v, _ | ⟨w, ws⟩⟩
  · rfl
  · exact absurd rfl h
  · rfl

/-- Settles O7: by the request. A bus access one byte wide is a device row or an unmapped row
(`decodesFaithfully_readRequest`, `decodesFaithfully_writeRequest`), a host operation stands for itself, and nothing else is
accepted. -/
theorem decodedRequestEncodesBack : Obligations.DecodedRequestEncodesBack := by
  intro cfg view r i h
  rcases r with op | ⟨o₁, o₂⟩
  case overlapping => cases h
  case one =>
    cases op with
    | read addr n =>
      by_cases hn : n = 1
      · subst hn
        exact decodesFaithfully_readRequest cfg view addr i h
      · cases (decode_wide_read cfg view addr hn).symm.trans h
    | write addr data =>
      by_cases hlen : data.length = 1
      · obtain ⟨v, rfl⟩ := List.length_eq_one_iff.mp hlen
        exact decodesFaithfully_writeRequest cfg view addr v i h
      · cases (decode_wide_write cfg view addr hlen).symm.trans h
    | _ => cases h; exact ⟨rfl, rfl, rfl⟩

/-- Settles O9: the decoder evaluates to the row on each of the seven words. -/
theorem specWordsDecodeToTheirRows : Obligations.SpecWordsDecodeToTheirRows := by
  unfold Obligations.SpecWordsDecodeToTheirRows
  decide

/-! ### Match and mask (R83) -/

/-- SECTOR_ERASE's match and mask fix the data byte and leave the address free. -/
theorem commandWord_and_sectorErase (off : Offset) (v : Byte) :
    commandWord off v &&& 0x0000FF#24 = 0x000030#24 ↔ v = 0x30#8 := commandWord_and_low off v 0x30#8

/-- Every command word is the word of some offset and byte. -/
theorem commandWord_surjective (cw : CommandWord) : ∃ off v, commandWord off v = cw := by
  refine ⟨flashOff 0#8 (wordAddr cw), wordData cw, ?_⟩
  have h := (commandWord_and_full (flashOff 0#8 (wordAddr cw)) (wordData cw) cw).mpr ⟨a16Of_flashOff _ _, rfl⟩
  rwa [show (0xFFFFFF#24) = BitVec.allOnes 24 by decide, BitVec.and_allOnes] at h

theorem mem_states_of_takes {row : CommandRow} {p : Proto} {cw : CommandWord} (h : row.takes p cw = true) :
    p ∈ row.states := by
  simp only [CommandRow.takes, Bool.and_eq_true, List.contains_iff_mem] at h
  exact h.1

/-- A row takes a word in a state it lists exactly if the decoder gives that row there. The mask says which of the two fields
the row tests; UNLOCK1 and UNLOCK2 list two states, and PROGRAM_DATA tests nothing. -/
theorem takes_iff_mnemonic_eq {row : CommandRow} (hrow : row ∈ commandTable) {p : Proto} (hp : p ∈ row.states)
    (off : Offset) (v : Byte) : row.takes p (commandWord off v) = true ↔ (decodeFlashWrite p off v).mnemonic = row.mnemonic := by
  have hmatch : row.takes p (commandWord off v) = true ↔ commandWord off v &&& row.mask = row.mtch := by
    simp [CommandRow.takes, hp]
  rw [hmatch]
  simp only [commandTable, List.mem_cons, List.not_mem_nil, or_false] at hrow
  rcases hrow with rfl | rfl | rfl | rfl | rfl | rfl | rfl | rfl | rfl | rfl | rfl <;>
    simp only [commandWord_and_full, commandWord_and_sectorErase, commandWord_and_high, List.mem_cons, List.not_mem_nil,
      or_false] at hp ⊢
  all_goals rcases hp with rfl | rfl <;> simp only [decodeFlashWrite]
  all_goals repeat' split
  all_goals simp_all [wordAddr, wordData, Instr.mnemonic]

/-- The decoder gives a row of the table, in a state the row lists, or one of the two rows that take what is left. -/
theorem mnemonic_mem_commandTable (p : Proto) (off : Offset) (v : Byte) :
    (∃ row ∈ commandTable, p ∈ row.states ∧ (decodeFlashWrite p off v).mnemonic = row.mnemonic) ∨
    decodeFlashWrite p off v = .reject off v ∨ decodeFlashWrite p off v = .bankSelectBadAddr off v := by
  fun_cases decodeFlashWrite p off v
  case case2 | case4 | case10 | case13 => exact .inr (.inl rfl)
  case case16 => exact .inr (.inr rfl)
  case case1 c _ => cases c <;> simp [commandTable, Instr.mnemonic]
  case case3 c _ => cases c <;> simp [commandTable, Instr.mnemonic]
  all_goals simp [commandTable, Instr.mnemonic]

/-- A mnemonic names one row of the table. -/
theorem eq_of_mnemonic_eq :
    ∀ row ∈ commandTable, ∀ row' ∈ commandTable, row.mnemonic = row'.mnemonic → row = row' := by
  decide

/-- The two rows that take what is left are not in the table. -/
theorem mnemonic_ne_of_mem_commandTable :
    ∀ row ∈ commandTable, row.mnemonic ≠ "REJECT" ∧ row.mnemonic ≠ "BANK_SELECT_BADADDR" := by
  decide

/-- Settles O8: the decoder gives one row, so by `takes_iff_mnemonic_eq` the rows of a state exclude each other, and no row
takes a word exactly if the decoder gives none of the table's rows. -/
theorem flashDecodeFollowsMatchAndMask : Obligations.FlashDecodeFollowsMatchAndMask := by
  refine ⟨fun row hrow p hp off v => takes_iff_mnemonic_eq hrow hp off v, ?_, ?_⟩
  · intro row hrow row' hrow' p cw h h'
    obtain ⟨off, v, rfl⟩ := commandWord_surjective cw
    have hm := (takes_iff_mnemonic_eq hrow (mem_states_of_takes h) off v).mp h
    have hm' := (takes_iff_mnemonic_eq hrow' (mem_states_of_takes h') off v).mp h'
    exact eq_of_mnemonic_eq row hrow row' hrow' (hm.symm.trans hm')
  · intro p off v
    constructor
    · intro hnone
      refine (mnemonic_mem_commandTable p off v).resolve_left ?_
      rintro ⟨row, hrow, hp, hm⟩
      have htakes := (takes_iff_mnemonic_eq hrow hp off v).mpr hm
      rw [hnone row hrow] at htakes
      cases htakes
    · intro hdec row hrow
      rw [Bool.eq_false_iff]
      intro h
      have hm := (takes_iff_mnemonic_eq hrow (mem_states_of_takes h) off v).mp h
      obtain ⟨hreject, hbad⟩ := mnemonic_ne_of_mem_commandTable row hrow
      rcases hdec with hd | hd <;> rw [hd] at hm
      · exact hreject hm.symm
      · exact hbad hm.symm

end Sys2Proof
end

section
/-! PROOFS. What a device access can do and put out: the inversion of a flash write, and the diagnostics of a read and of a
write. -/

namespace Sys2Proof.Machine

/-! ### Flash writes -/

/-- What a completed flash write `(off, v)` leaves behind and emits, row by row (R130 to R164). -/
inductive Flash.WriteDone (f : Flash) (off : Offset) (v : Byte) : Flash → List Diag → Prop
  | unlock1 {c : Context} (hp : f.proto = .wfc .zero c) : Flash.WriteDone f off v { f with proto := .wfc .one c } []
  | unlock2 {c : Context} (hp : f.proto = .wfc .one c) : Flash.WriteDone f off v { f with proto := .wfc .two c } []
  | idEnter (hp : f.proto = .wfc .two .none) : Flash.WriteDone f off v { f with mode := .chipId, proto := .idle } []
  | idExit (hp : f.proto = .wfc .two .none) {ds : List Diag}
      (hds : ds = if exitWithoutEntry f.mode then [⟨.chipIdExitNotInChipId, .devWrite off v⟩] else []) :
      Flash.WriteDone f off v { f with mode := .data, proto := .idle } ds
  | arm (hp : f.proto = .wfc .two .none) {p : Proto} : Flash.WriteDone f off v { f with proto := p } []
  | chipErase (hp : f.proto = .wfc .two .erase) :
      Flash.WriteDone f off v { f with buf := f.buf.erase 0 f.buf.len, proto := .idle } []
  | sectorErase (hp : f.proto = .wfc .two .erase) : Flash.WriteDone f off v
      { f with
        buf := f.buf.erase (sectorBase f.bank (a16Of off)) (sectorBase f.bank (a16Of off) + 4096)
        proto := .idle } []
  | reject : Flash.WriteDone f off v f [⟨.rejectedCommand, .devWrite off v⟩]
  | program (hp : f.proto = .writeSingleByte) : Flash.WriteDone f off v
      { f with
        buf := f.buf.write .flash (storageIndex f.bank (a16Of off))
          (f.buf.read .flash (storageIndex f.bank (a16Of off)) &&& v)
        proto := .idle } []
  | programBeyond (hidx : f.buf.len ≤ storageIndex f.bank (a16Of off)) :
      Flash.WriteDone f off v f [⟨.programOutOfRange, .devWrite off v⟩]
  | bankSelect (hp : f.proto = .bankChange) : Flash.WriteDone f off v { f with bank := v.toNat, proto := .idle } []
  | bankBeyond (hp : f.proto = .bankChange) :
      Flash.WriteDone f off v { f with proto := .idle } [⟨.bankOutOfRange, .devWrite off v⟩]

/-- What a flash write that raises a fault has met: a sector beyond the buffer, or a nonzero address in `BCH`. -/
inductive Flash.WriteRaised (f : Flash) (off : Offset) (v : Byte) : Fatal → Prop
  | sectorBeyond (hbase : f.buf.len < sectorBase f.bank (a16Of off) + 4096) :
      Flash.WriteRaised f off v .sectorEraseOutOfRange
  | badAddress (hp : f.proto = .bankChange) (ha : a16Of off ≠ 0#16) :
      Flash.WriteRaised f off v (.bankChangeNonZeroAddress (a16Of off) v)

/-- What an effect of a flash write may be. -/
def Flash.Outcome (f : Flash) (off : Offset) (v : Byte) (e : Effect Flash) : Prop :=
  match e with
  | .done g ds => f.WriteDone off v g ds
  | .raised x => f.WriteRaised off v x

/-- Every flash write ends in one of the listed ways. -/
theorem Flash.write_outcome (f : Flash) (off : Offset) (v : Byte) : f.Outcome off v (f.write off v) := by
  rcases f.write_cases off v with ⟨c, hp, _, _, he⟩ | ⟨c, hp, _, _, he⟩ | ⟨hp, _, _, he⟩ | ⟨hp, _, _, he⟩ |
    ⟨hp, _, _, he⟩ | ⟨hp, _, _, he⟩ | ⟨hp, _, he⟩ | ⟨hp, _, _, he⟩ | ⟨hp, _, _, he⟩ | ⟨_, he⟩ | ⟨hp, he⟩ | ⟨hp, _, he⟩ |
    ⟨hp, ha, he⟩ <;> rw [he]
  · exact .unlock1 hp
  · exact .unlock2 hp
  · exact .idEnter hp
  · exact .idExit hp rfl
  · exact .arm hp
  · exact .chipErase hp
  · unfold Flash.sectorErase
    dsimp only
    split
    case isTrue hbase => exact .sectorBeyond hbase
    case isFalse => exact .sectorErase hp
  · exact .arm hp
  · exact .arm hp
  · exact .reject
  · rcases Nat.lt_or_ge (storageIndex f.bank (a16Of off)) f.buf.len with hidx | hidx
    · rw [Flash.programData_of_lt v hidx]
      exact .program hp
    · rw [Flash.programData_of_le v hidx]
      exact .programBeyond hidx
  · unfold Flash.bankSelect
    split
    · exact .bankBeyond hp
    · exact .bankSelect hp
  · exact .badAddress hp ha

theorem Flash.writeDone_of_eq {f g : Flash} {off : Offset} {v : Byte} {ds : List Diag} (h : f.write off v = .done g ds) :
    f.WriteDone off v g ds := by
  have := f.write_outcome off v
  rwa [h] at this

theorem Flash.writeRaised_of_eq {f : Flash} {off : Offset} {v : Byte} {x : Fatal} (h : f.write off v = .raised x) :
    f.WriteRaised off v x := by
  have := f.write_outcome off v
  rwa [h] at this

/-! ### The device's accesses -/

/-- A device write on a flash is the flash's own write. -/
theorem Device.write_flash_done {f : Flash} {d : Device} {off : Offset} {v : Byte} {ds : List Diag}
    (h : (Device.flash f).write off v = .done d ds) : ∃ g, d = .flash g ∧ f.WriteDone off v g ds := by
  obtain ⟨g, hg, rfl⟩ := Effect.map_eq_done h
  exact ⟨g, rfl, Flash.writeDone_of_eq hg⟩

/-- Only a flash write raises a fault. -/
theorem Device.write_raised {d : Device} {off : Offset} {v : Byte} {x : Fatal} (h : d.write off v = .raised x) :
    ∃ f, d = .flash f ∧ f.WriteRaised off v x := by
  cases d with
  | sram y => exact absurd (Effect.map_eq_raised h) Sram.write_not_raised
  | flash f => exact ⟨f, rfl, Flash.writeRaised_of_eq (Effect.map_eq_raised h)⟩

/-- The device is a flash with a storage index beyond its buffer, which no device that meets the invariants is. -/
def Device.HasIndexBeyond (d : Device) : Prop := ∃ f a, d = .flash f ∧ f.buf.len ≤ storageIndex f.bank a

theorem Device.not_hasIndexBeyond {d : Device} (h : d.wf) : ¬ d.HasIndexBeyond := by
  rintro ⟨f, a, rfl, hle⟩
  obtain ⟨_, _, hbank⟩ := h
  exact absurd (storageIndex_lt hbank a) (Nat.not_lt.mpr hle)

/-- A device read emits at most one diagnostic: W1 or W11, which records the offset. -/
theorem Device.read_diags (d : Device) (off : Offset) :
    (d.read off).diags = [] ∨ (d.read off).diags = [⟨.sramReadOutOfRange, .devRead off⟩] ∨
    (d.HasIndexBeyond ∧ (d.read off).diags = [⟨.flashReadOutOfRange, .devRead off⟩]) := by
  cases d with
  | sram x =>
    show (x.read off).diags = _ ∨ (x.read off).diags = _ ∨ _
    by_cases h : off.toNat < 65536
    · exact .inl (by rw [Sram.read_of_lt x h])
    · exact .inr (.inl (by rw [Sram.read_of_not_lt x h]))
  | flash f =>
    show (f.read off).diags = _ ∨ _ ∨ (_ ∧ (f.read off).diags = _)
    cases hm : f.mode with
    | chipId => exact .inl (by rw [Flash.read_of_chipId hm, Flash.readChipId_eq])
    | data =>
      rcases Nat.lt_or_ge (storageIndex f.bank (a16Of off)) f.buf.len with hidx | hidx
      · exact .inl (by rw [Flash.read_of_data hm, Flash.readData_of_lt hidx])
      · exact .inr (.inr ⟨⟨f, _, rfl, hidx⟩, by rw [Flash.read_of_data hm, Flash.readData_of_le hidx]⟩)

/-- A device write emits at most one diagnostic, neither W4 nor W11, which records the offset and the byte; W8 needs an index
beyond the buffer. -/
theorem Device.write_diags {d d' : Device} {off : Offset} {v : Byte} {ds : List Diag} (h : d.write off v = .done d' ds) :
    ds = [] ∨ ∃ c, ds = [⟨c, .devWrite off v⟩] ∧ c ≠ .unmappedWrite ∧ c ≠ .flashReadOutOfRange ∧
      (c = .programOutOfRange → d.HasIndexBeyond) := by
  cases d with
  | sram x =>
    obtain ⟨y, hy, rfl⟩ := Effect.map_eq_done h
    rcases Sram.write_done hy with ⟨_, _, rfl⟩ | ⟨_, _, rfl⟩
    · exact .inl rfl
    · exact .inr ⟨_, rfl, by simp, by simp, by simp⟩
  | flash f =>
    obtain ⟨g, rfl, hw⟩ := Device.write_flash_done h
    cases hw with
    | idExit hp hds =>
      subst hds
      split
      · exact .inr ⟨_, rfl, by simp, by simp, by simp⟩
      · exact .inl rfl
    | programBeyond hidx => exact .inr ⟨_, rfl, by simp, by simp, fun _ => ⟨f, _, rfl, hidx⟩⟩
    | reject | bankBeyond => exact .inr ⟨_, rfl, by simp, by simp, by simp⟩
    | _ => exact .inl rfl

end Sys2Proof.Machine
end

section
/-! PROOFS. What an instruction can do, said once, with the access it makes and what it puts out. -/

namespace Sys2Proof

open Machine

/-! ### The device access of an instruction -/

/-- The offset at which a read row reads the device; a bus row does so if its tag lets it (R84, R100). -/
def Instr.readOff (i : Instr) : Option Offset :=
  match i with
  | .busReadSave addr => some (offOf addr)
  | .busReadUnmapped addr => some (offOf addr)
  | .sramRead off => some off
  | .flashReadData off => some off
  | .flashReadChipId off => some off
  | _ => none

/-- The offset and byte with which a write row writes the device; a bus row does so if its tag lets it (R84, R101). -/
def Instr.writeWord (i : Instr) : Option (Offset × Byte) :=
  match i with
  | .busWriteSave addr v => some (offOf addr, v)
  | .busWriteUnmapped addr v => some (offOf addr, v)
  | .sramWrite off v => some (off, v)
  | _ => i.flashWord

theorem Instr.writeWord_of_flashWord {i : Instr} {w : Offset × Byte} (h : i.flashWord = some w) : i.writeWord = some w := by
  cases i <;> simp_all [Instr.writeWord, Instr.flashWord]

end Sys2Proof

namespace Sys2Proof.Machine

/-- A write row is no read and no inspection, and replaces no device. -/
theorem access_of_writeWord {i : Instr} {w : Offset × Byte} (h : i.writeWord = some w) :
    isRead i = false ∧ isInspection i = false ∧ replacesDevice i = false := by
  cases i <;> simp [Instr.writeWord, Instr.flashWord] at h <;> exact ⟨rfl, rfl, rfl⟩

/-- A read row reads the device, or is a bus row outside the save window. -/
theorem exec_of_readOff {i : Instr} {off : Offset} (h : i.readOff = some off) (s : State) :
    exec i s = whenLive s (s.reply (s.dev.read off)) ∨
    ∃ addr, (i = .busReadSave addr ∨ i = .busReadUnmapped addr) ∧ exec i s = whenLive s (s.unmappedRead addr) := by
  have hbus : ∀ addr, s.busRead addr = s.reply (s.dev.read (offOf addr)) ∨ s.busRead addr = s.unmappedRead addr :=
    fun addr => by unfold State.busRead; split <;> simp
  cases i <;> simp only [Instr.readOff, reduceCtorEq, Option.some.injEq] at h <;> subst h
  case busReadSave addr =>
    rw [exec_busReadSave]
    exact (hbus addr).imp (congrArg _) fun hb => ⟨addr, .inl rfl, congrArg _ hb⟩
  case busReadUnmapped addr =>
    rw [exec_busReadUnmapped]
    exact (hbus addr).imp (congrArg _) fun hb => ⟨addr, .inr rfl, congrArg _ hb⟩
  case sramRead => exact .inl (exec_sramRead _ s)
  case flashReadData => exact .inl (exec_flashReadData _ s)
  case flashReadChipId => exact .inl (exec_flashReadChipId _ s)

/-- A write row writes the device, or is a bus row outside the save window. -/
theorem exec_of_writeWord {i : Instr} {off : Offset} {v : Byte} (h : i.writeWord = some (off, v)) (s : State) :
    exec i s = whenLive s (s.commit (s.dev.write off v)) ∨
    ∃ addr, (i = .busWriteSave addr v ∨ i = .busWriteUnmapped addr v) ∧
      exec i s = whenLive s (s.unmappedWrite addr v) := by
  have hbus : ∀ addr, s.busWrite addr v = s.commit (s.dev.write (offOf addr) v) ∨
      s.busWrite addr v = s.unmappedWrite addr v := fun addr => by unfold State.busWrite; split <;> simp
  cases hw : i.flashWord with
  | some w =>
    rw [Instr.writeWord_of_flashWord hw, Option.some.injEq] at h
    subst h
    exact .inl (exec_flashWord hw s)
  | none =>
    cases i <;> simp only [Instr.flashWord, reduceCtorEq] at hw <;>
      simp only [Instr.writeWord, Instr.flashWord, reduceCtorEq, Option.some.injEq, Prod.mk.injEq] at h <;>
      obtain ⟨rfl, rfl⟩ := h
    case busWriteSave addr v =>
      rw [exec_busWriteSave]
      exact (hbus addr).imp (congrArg _) fun hb => ⟨addr, .inl rfl, congrArg _ hb⟩
    case busWriteUnmapped addr v =>
      rw [exec_busWriteUnmapped]
      exact (hbus addr).imp (congrArg _) fun hb => ⟨addr, .inr rfl, congrArg _ hb⟩
    case sramWrite => exact .inl (exec_sramWrite _ _ s)

/-! ### Inspections -/

/-- A flash of a length that R206 does not list raises F2 where type or label is asked for (R201, R202). -/
theorem Device.unidentified_flash {f : Flash} (h64 : f.buf.len ≠ 65536) (h128 : f.buf.len ≠ 131072) :
    (Device.flash f).saveType = .raised .flashLengthInvariant ∧ (Device.flash f).label = .raised .flashLengthInvariant := by
  simp [Device.saveType, Device.label, flashType, flashLabel, h64, h128]

/-- Type and label are missing only for a flash of a length that R206 does not list. -/
theorem Device.identification_cases (d : Device) :
    ((∃ t, d.saveType = .done t []) ∧ ∃ l, d.label = .done l []) ∨
    ((∃ f, d = .flash f ∧ f.buf.len ≠ 65536 ∧ f.buf.len ≠ 131072) ∧
      d.saveType = .raised .flashLengthInvariant ∧ d.label = .raised .flashLengthInvariant) := by
  cases d with
  | sram x => exact .inl ⟨⟨_, (Device.identifiesAs_sram x).1⟩, _, (Device.identifiesAs_sram x).2⟩
  | flash f =>
    by_cases h64 : f.buf.len = 65536
    · exact .inl ⟨⟨_, (Device.identifiesAs_flash64K h64).1⟩, _, (Device.identifiesAs_flash64K h64).2⟩
    · by_cases h128 : f.buf.len = 131072
      · exact .inl ⟨⟨_, (Device.identifiesAs_flash128K h128).1⟩, _, (Device.identifiesAs_flash128K h128).2⟩
      · exact .inr ⟨⟨f, rfl, h64, h128⟩, Device.unidentified_flash h64 h128⟩

/-- An inspection answers a result with no diagnostic, or meets a flash of a length that R206 does not list. -/
theorem exec_of_isInspection {i : Instr} (h : isInspection i = true) (s : State) :
    (∃ r, exec i s = whenLive s (.next (s.emit ⟨some r, []⟩))) ∨
    ((∃ f, s.dev = .flash f ∧ f.buf.len ≠ 65536 ∧ f.buf.len ≠ 131072) ∧
      exec i s = whenLive s (.next (s.takeFatal .flashLengthInvariant))) := by
  have htype : exec .getType s = whenLive s (s.answer (s.dev.saveType.map .saveType)) := rfl
  have hlabel : exec .storageType s = whenLive s (s.answer (s.dev.label.map .label)) := rfl
  cases i with
  | getData => exact .inl ⟨_, rfl⟩
  | snapshot => exact .inl ⟨_, rfl⟩
  | getType =>
    rcases s.dev.identification_cases with ⟨⟨t, ht⟩, _⟩ | ⟨hlen, ht, _⟩
    · exact .inl ⟨_, by rw [htype, ht]; rfl⟩
    · exact .inr ⟨hlen, by rw [htype, ht]; rfl⟩
  | storageType =>
    rcases s.dev.identification_cases with ⟨_, l, hl⟩ | ⟨hlen, _, hl⟩
    · exact .inl ⟨_, by rw [hlabel, hl]; rfl⟩
    · exact .inr ⟨hlen, by rw [hlabel, hl]; rfl⟩
  | _ => cases h

/-! ### The inversion of an instruction -/

/-- The ways in which instruction `i` answers a next state at a live state `s`, each with the whole next state. -/
inductive Executes (i : Instr) (s : State) : State → Prop
  | read {off : Offset} (hi : i.readOff = some off) :
      Executes i s (s.emit ⟨some (.byte (s.dev.read off).byte), (s.dev.read off).diags⟩)
  | unmappedRead {addr : BusAddr} (hi : i = .busReadSave addr ∨ i = .busReadUnmapped addr) :
      Executes i s (s.emit ⟨some (.byte 0xFF#8), [⟨.unmappedRead, .busRead addr⟩]⟩)
  | write {off : Offset} {v : Byte} {d : Device} {ds : List Diag} (hi : i.writeWord = some (off, v))
      (hw : s.dev.write off v = .done d ds) : Executes i s (s.install d ⟨none, ds⟩)
  | writeFault {off : Offset} {v : Byte} {f : Fatal} (hi : i.writeWord = some (off, v))
      (hw : s.dev.write off v = .raised f) : Executes i s (s.takeFatal f)
  | unmappedWrite {addr : BusAddr} {v : Byte} (hi : i = .busWriteSave addr v ∨ i = .busWriteUnmapped addr v) :
      Executes i s (s.emit ⟨none, [⟨.unmappedWrite, .busWrite addr v⟩]⟩)
  | inspect {r : Result} (hi : isInspection i = true) : Executes i s (s.emit ⟨some r, []⟩)
  | inspectFault {f : Flash} (hi : isInspection i = true) (hd : s.dev = .flash f) (h64 : f.buf.len ≠ 65536)
      (h128 : f.buf.len ≠ 131072) : Executes i s (s.takeFatal .flashLengthInvariant)
  | substitute {ty : SaveTypeInput} {seed : Option (List Byte)} (hi : i = .setSaveDevice ty seed) :
      Executes i s (s.install (buildDevice ty seed).1 ⟨some (.oldDevice s.dev), substitutionDiags ty seed⟩)
  | restore {r : Record} {d : Device} (hi : i = .restore r) (hd : deviceOfRecord r = some d) :
      Executes i s (s.install d ⟨some (.oldDevice s.dev), []⟩)

/-- An instruction is a read row, a write row, an inspection, a substitution or a restore. -/
theorem exec_kind_cases (i : Instr) :
    (∃ off, i.readOff = some off) ∨ (∃ off v, i.writeWord = some (off, v)) ∨ isInspection i = true ∨
    (∃ ty seed, i = .setSaveDevice ty seed) ∨ ∃ r, i = .restore r := by
  cases i <;> simp [Instr.readOff, Instr.writeWord, Instr.flashWord, isInspection]

/-- RESTORE's meaning on a record that stands for a device, with no fault recorded. -/
theorem exec_restore_some {s : State} {r : Record} {d : Device} (hlive : s.fault = none) (h : deviceOfRecord r = some d) :
    exec (.restore r) s = .next (s.install d ⟨some (.oldDevice s.dev), []⟩) := by
  show execRestore r s = _
  simp [execRestore, whenLive_of_live hlive, h]

/-- RESTORE's meaning on a record that stands for no device, with no fault recorded. -/
theorem exec_restore_none {s : State} {r : Record} (hlive : s.fault = none) (h : deviceOfRecord r = none) :
    exec (.restore r) s = .refused .invalidSnapshot := by
  show execRestore r s = _
  simp [execRestore, whenLive_of_live hlive, h]

/-- Every instruction is an answer behind the guard of R225. -/
theorem exec_eq_whenLive (i : Instr) (s : State) : ∃ a : Answer, exec i s = whenLive s a := by
  cases i <;> exact ⟨_, rfl⟩

/-- An instruction that answers a next state does so on a live state and in one of the listed ways. -/
theorem executes_of_next {i : Instr} {s t : State} (h : exec i s = .next t) : s.fault = none ∧ Executes i s t := by
  have hlive : s.fault = none := by
    obtain ⟨a, ha⟩ := exec_eq_whenLive i s
    exact (whenLive_next (ha.symm.trans h)).1
  refine ⟨hlive, ?_⟩
  rcases exec_kind_cases i with ⟨off, hi⟩ | ⟨off, v, hi⟩ | hi | ⟨ty, seed, rfl⟩ | ⟨r, rfl⟩
  · rcases exec_of_readOff hi s with he | ⟨addr, hi, he⟩ <;> rw [he, whenLive_of_live hlive] at h <;> cases h
    · exact .read hi
    · exact .unmappedRead hi
  · rcases exec_of_writeWord hi s with he | ⟨addr, hi, he⟩ <;> rw [he, whenLive_of_live hlive] at h
    · rcases commit_next h with ⟨d, ds, hw, rfl⟩ | ⟨f, hw, rfl⟩
      · exact .write hi hw
      · exact .writeFault hi hw
    · cases h
      exact .unmappedWrite hi
  · rcases exec_of_isInspection hi s with ⟨r, he⟩ | ⟨⟨f, hd, h64, h128⟩, he⟩ <;>
      rw [he, whenLive_of_live hlive] at h <;> cases h
    · exact .inspect hi
    · exact .inspectFault hi hd h64 h128
  · rw [exec_setSaveDevice hlive] at h
    cases h
    exact .substitute rfl
  · cases hd : deviceOfRecord r with
    | none =>
      rw [exec_restore_none hlive hd] at h
      cases h
    | some d =>
      rw [exec_restore_some hlive hd] at h
      cases h
      exact .restore rfl hd

end Sys2Proof.Machine
end

section
/-! PROOFS. The rules over all instructions and over a step: the invariants, the frame, fault entry, and the diagnostics. -/

namespace Sys2Proof.Machine

/-! ### The step -/

/-- A step that answers a next state found no fault, and took nothing or one accepted request. -/
theorem step_next {s t : State} (h : step s = .next t) :
    s.fault = none ∧ ((s.pending = [] ∧ t = s) ∨ ∃ i, exec i s.consume = .next t) := by
  unfold step at h
  split at h
  case h_1 => cases h
  case h_2 hlive =>
    refine ⟨hlive, ?_⟩
    split at h
    case h_1 hf => exact .inl ⟨List.head?_eq_none_iff.mp hf, (Host.Outcome.next.inj h).symm⟩
    case h_2 =>
      split at h
      · exact .inr ⟨_, h⟩
      · cases h

section Presented

variable {s : State} {r : Request} {rest : List Request}

/-- On a live block with a request presented that decodes to an instruction, the step is that instruction (R6). -/
theorem step_of_accepted (hlive : s.fault = none) (hp : s.pending = r :: rest) {i : Instr}
    (hi : decode s.cfg s.dev.view r = .accepted i) : step s = exec i { s with pending := rest } := by
  simp [step, hlive, State.fetch, State.consume, hp, hi]

/-- On a live block with a request presented that the decoder rejects, the step is refused by name (R231). -/
theorem step_of_rejected (hlive : s.fault = none) (hp : s.pending = r :: rest) {x : Reject}
    (hx : decode s.cfg s.dev.view r = .rejected x) : step s = .refused (refusalOf x) := by
  simp [step, hlive, State.fetch, hp, hx]

end Presented

/-- Settles O11: `step_of_accepted` is the statement. -/
theorem stepRunsTheDecodedInstruction : Obligations.StepRunsTheDecodedInstruction :=
  fun _ _ _ _ hlive hp hi => step_of_accepted hlive hp hi

/-- Settles O10: the decoder rejects each of the three, by name. -/
theorem overlapAndWideAccessAreRefused : Obligations.OverlapAndWideAccessAreRefused := by
  intro s rest hlive
  refine ⟨fun addr n hn hp => ?_, fun addr data hlen hp => ?_, fun o₁ o₂ hp => ?_⟩
  · exact step_of_rejected hlive hp (decode_wide_read s.cfg s.dev.view addr hn)
  · exact step_of_rejected hlive hp (decode_wide_write s.cfg s.dev.view addr hlen)
  · exact step_of_rejected (x := .overlap) hlive hp rfl

/-- Settles O12: a step tests the recorded fault first, and every instruction is an answer behind the guard of R225. -/
theorem faultedBlockHasNoStep : Obligations.FaultedBlockHasNoStep := by
  intro s f hf
  refine ⟨by simp only [step, hf], fun i => ?_⟩
  obtain ⟨a, ha⟩ := exec_eq_whenLive i s
  rw [ha, whenLive_of_fault hf]

/-- No instruction changes the configuration or the queue. -/
theorem Executes.frame {i : Instr} {s t : State} (h : Executes i s t) : t.cfg = s.cfg ∧ t.pending = s.pending := by
  cases h <;> exact ⟨rfl, rfl⟩

/-- Settles O13: an idle step finds the queue empty, and an instruction leaves configuration and queue as the fetch left
them. -/
theorem stepKeepsConfiguration : Obligations.StepKeepsConfiguration := by
  intro s t h
  obtain ⟨_, ⟨hp, rfl⟩ | ⟨i, he⟩⟩ := step_next h
  · exact ⟨rfl, by rw [hp, List.tail_nil]⟩
  · exact (executes_of_next he).2.frame

/-! ### The invariants -/

/-- Settles O2: the power-on device is an Sram device over 65536 bytes of the default fill. -/
theorem powerOnMeetsInvariant : Obligations.PowerOnMeetsInvariant :=
  fun _ => ⟨⟨Memory.wf_filled .sram 65536, rfl⟩, rfl⟩

/-- Every instruction keeps the invariants: it leaves the device, writes it, or installs one that meets them (R31). -/
theorem Executes.inv {i : Instr} {s t : State} (h : Executes i s t) (hinv : s.Inv) : t.Inv := by
  cases h with
  | write _ hw => exact Device.write_wf hinv hw
  | substitute => exact buildDevice_wf _ _
  | restore _ hd => exact deviceOfRecord_wf hd
  | _ => exact hinv

/-- Settles O3: an idle step changes nothing, and an instruction keeps the invariants. -/
theorem stepKeepsInvariant : Obligations.StepKeepsInvariant := by
  intro s t hinv h
  obtain ⟨_, ⟨_, rfl⟩ | ⟨i, he⟩⟩ := step_next h
  · exact hinv
  · exact (executes_of_next he).2.inv hinv

/-- Settles O5: the bank of a flash that meets the invariants is below the number of banks. -/
theorem storageIndexesStayInsideTheBuffer : Obligations.StorageIndexesStayInsideTheBuffer := by
  intro s f a hinv hd
  rw [State.Inv, hd] at hinv
  obtain ⟨_, _, hbank⟩ := hinv
  exact ⟨storageIndex_lt hbank a, sectorBase_add_le hbank a⟩

/-! ### Fault entry -/

/-- Settles O41: `takeFatal` is the only way in which an instruction leaves a fault recorded, and it writes nothing else. -/
theorem faultEntryIsPrecise : Obligations.FaultEntryIsPrecise := by
  intro i s t f h hf
  obtain ⟨hlive, hex⟩ := executes_of_next h
  refine ⟨hlive, ?_⟩
  cases hex with
  | writeFault | inspectFault => cases hf; rfl
  | _ => cases hlive.symm.trans hf

/-- From a state that meets the invariants only a write to a nonzero address in `BCH` enters a fault. -/
theorem Executes.fault_of_inv {i : Instr} {s t : State} {x : Fatal} (h : Executes i s t) (hlive : s.fault = none)
    (hinv : s.Inv) (hx : t.fault = some x) : ∃ (fl : Flash) (a : FlashAddr) (v : Byte),
      s.dev = .flash fl ∧ fl.proto = .bankChange ∧ a ≠ 0#16 ∧ x = .bankChangeNonZeroAddress a v := by
  cases h with
  | writeFault hi hw =>
    obtain ⟨fl, hd, hraised⟩ := Device.write_raised hw
    cases hx
    cases hraised with
    | badAddress hp ha => exact ⟨fl, _, _, hd, hp, ha, rfl⟩
    | sectorBeyond hbase =>
      exact absurd hbase (Nat.not_lt.mpr (storageIndexesStayInsideTheBuffer s fl _ hinv hd).2)
  | inspectFault hi hd h64 h128 =>
    rw [State.Inv, hd] at hinv
    obtain ⟨_, hlen, _⟩ := hinv
    exact absurd hlen (by simp [h64, h128])
  | _ => cases hlive.symm.trans hx

/-! ### Diagnostics -/

/-- The diagnostics of a substitution: each has its code W9 or W10 and records the type and the seed, and there are at most
two. -/
theorem substitutionDiags_spec (ty : SaveTypeInput) (seed : Option (List Byte)) :
    (substitutionDiags ty seed).length ≤ 2 ∧ ∀ d ∈ substitutionDiags ty seed,
      d.operands = .substitution ty seed ∧ (d.code = .unsupportedSaveType ∨ d.code = .seedLengthMismatch) := by
  unfold substitutionDiags
  split <;> split <;> simp

/-- A device event of a read row, which is not W3, records what R221 names. -/
theorem recordsOperands_of_readOff {i : Instr} {off : Offset} {c : DiagCode} (hi : i.readOff = some off)
    (hc : c ≠ .unmappedRead) : recordsOperands i ⟨c, .devRead off⟩ := by
  cases i <;> simp [Instr.readOff] at hi <;> simp [recordsOperands, hc, hi]

/-- A device event of a write row, which is not W4, records what R221 names. -/
theorem recordsOperands_of_writeWord {i : Instr} {off : Offset} {v : Byte} {c : DiagCode}
    (hi : i.writeWord = some (off, v)) (hc : c ≠ .unmappedWrite) : recordsOperands i ⟨c, .devWrite off v⟩ := by
  cases i <;> simp [Instr.writeWord, Instr.flashWord] at hi <;> simp [recordsOperands, hc, hi]

/-- What is known of an instruction's diagnostics: substitution's own, or at most one, which records its operands; W8 and W11
need an index beyond the buffer. -/
def DiagsOf (i : Instr) (s : State) (ds : List Diag) : Prop :=
  (∃ ty seed, i = .setSaveDevice ty seed ∧ ds = substitutionDiags ty seed) ∨ ds = [] ∨
  ∃ d, ds = [d] ∧ recordsOperands i d ∧
    (d.code = .programOutOfRange ∨ d.code = .flashReadOutOfRange → s.dev.HasIndexBeyond)

theorem Executes.diags {i : Instr} {s t : State} (h : Executes i s t) : DiagsOf i s t.out.diags := by
  cases h with
  | read hi =>
    refine .inr ?_
    rcases s.dev.read_diags _ with hds | hds | ⟨hbeyond, hds⟩
    · exact .inl hds
    · exact .inr ⟨_, hds, recordsOperands_of_readOff hi (by simp), by simp⟩
    · exact .inr ⟨_, hds, recordsOperands_of_readOff hi (by simp), fun _ => hbeyond⟩
  | unmappedRead hi => exact .inr (.inr ⟨_, rfl, by rcases hi with rfl | rfl <;> simp [recordsOperands], by simp⟩)
  | write hi hw =>
    refine .inr ?_
    rcases Device.write_diags hw with hds | ⟨c, hds, hunmapped, hread, hbeyond⟩
    · exact .inl hds
    · exact .inr ⟨_, hds, recordsOperands_of_writeWord hi hunmapped, fun hc => hbeyond (hc.resolve_right hread)⟩
  | unmappedWrite hi => exact .inr (.inr ⟨_, rfl, by rcases hi with rfl | rfl <;> simp [recordsOperands], by simp⟩)
  | substitute hi => exact .inl ⟨_, _, hi, rfl⟩
  | writeFault | inspect | inspectFault | restore => exact .inr (.inl rfl)

/-- Settles O4: the fault is F1 (`Executes.fault_of_inv`), and W8 and W11 need an index beyond the buffer, which the invariants
exclude. -/
theorem onlyBadBankAddressFaults : Obligations.OnlyBadBankAddressFaults := by
  intro i s t hinv h
  obtain ⟨hlive, hex⟩ := executes_of_next h
  refine ⟨fun x hx => hex.fault_of_inv hlive hinv hx, fun d hd => not_or.mp fun hcode => ?_⟩
  rcases hex.diags with ⟨ty, seed, _, hds⟩ | hds | ⟨e, hds, _, hbeyond⟩ <;> rw [hds] at hd
  · rcases ((substitutionDiags_spec ty seed).2 d hd).2 with hc | hc <;> simp [hc] at hcode
  · cases hd
  · obtain rfl := List.mem_singleton.mp hd
    exact Device.not_hasIndexBeyond hinv (hbeyond hcode)

/-- Settles O42: only a substitution has more than the one diagnostic of `DiagsOf`. -/
theorem diagnosticsPerOperationAreBounded : Obligations.DiagnosticsPerOperationAreBounded := by
  intro i s t h
  rcases (executes_of_next h).2.diags with ⟨ty, seed, hi, hds⟩ | hds | ⟨d, hds, _⟩ <;> rw [hds]
  · exact ⟨(substitutionDiags_spec ty seed).1, fun hne => absurd hi (hne ty seed)⟩
  · simp
  · simp

/-- Settles O43: the one diagnostic of `DiagsOf`, and both of a substitution, record their operands. -/
theorem eventsRecordTheirOperands : Obligations.EventsRecordTheirOperands := by
  intro i s t h d hd
  rcases (executes_of_next h).2.diags with ⟨ty, seed, rfl, hds⟩ | hds | ⟨e, hds, hrec, _⟩ <;> rw [hds] at hd
  · exact ((substitutionDiags_spec ty seed).2 d hd).1
  · cases hd
  · obtain rfl := List.mem_singleton.mp hd
    exact hrec

/-- Settles O40: every meaning writes `out` whole and none reads it. -/
theorem earlierOutputIsNeverRead : Obligations.EarlierOutputIsNeverRead := by
  intro i s o
  cases i <;> rfl

end Sys2Proof.Machine
end

section
/-! PROOFS. The two levels of an access (spec/30_encoding.md R84, spec/40_memory_map.md): `write_byte`, and the device row of a
save-window access. -/

namespace Sys2Proof.Machine

/-! ### `write_byte` -/

/-- With the save tag, `write_byte` is the device's write at `addr[23:0]` (R101). -/
theorem State.busWrite_of_tag_eq {s : State} {addr : BusAddr} (h : tagOf addr = s.cfg.saveTag) (v : Byte) :
    s.busWrite addr v = s.commit (s.dev.write (offOf addr) v) := if_pos ((inWindow_iff s addr).mpr h)

/-- With any other tag, `write_byte` does not reach the device (R101). -/
theorem State.busWrite_of_tag_ne {s : State} {addr : BusAddr} (h : tagOf addr ≠ s.cfg.saveTag) (v : Byte) :
    s.busWrite addr v = s.unmappedWrite addr v := if_neg (mt (inWindow_iff s addr).mp h)

/-- Settles O16: on a live block both write rows are `write_byte`; the tag decides which of its halves answers, and the
device's effect whether the block goes on. -/
theorem busWriteForwardsOrDoesNothing : Obligations.BusWriteForwardsOrDoesNothing := by
  intro s addr v hlive
  constructor
  · intro htag
    rw [exec_busWriteSave, whenLive_of_live hlive, State.busWrite_of_tag_eq htag]
    cases s.dev.write (offOf addr) v with
    | done d ds => exact ⟨_, rfl, rfl⟩
    | raised f => exact ⟨_, rfl, rfl⟩
  · intro htag
    rw [exec_busWriteUnmapped, whenLive_of_live hlive, State.busWrite_of_tag_ne htag]
    rfl

/-! ### The device row of an access -/

/-- The row to which the device level decodes a read is the device's read, whatever it decodes by. -/
theorem exec_decodeDeviceRead (view : DeviceView) (off : Offset) (s : State) :
    exec (decodeDeviceRead view off) s = whenLive s (s.reply (s.dev.read off)) := by
  rcases view with _ | ⟨_ | _, p⟩
  · exact exec_sramRead off s
  · exact exec_flashReadData off s
  · exact exec_flashReadChipId off s

/-- The row to which the device level decodes a write is the device's write, whatever it decodes by. -/
theorem exec_decodeDeviceWrite (view : DeviceView) (off : Offset) (v : Byte) (s : State) :
    exec (decodeDeviceWrite view off v) s = whenLive s (s.commit (s.dev.write off v)) := by
  cases view with
  | sram => exact exec_sramWrite off v s
  | flash m p => exact exec_flashWord (flashWord_decodeFlashWrite p off v) s

/-- Settles O14: the bus row and the device row are both the device's access. -/
theorem windowAccessIsItsDeviceRow : Obligations.WindowAccessIsItsDeviceRow := by
  constructor
  · intro s addr htag
    rw [exec_busReadSave, State.busRead_of_tag_eq htag]
    exact (exec_decodeDeviceRead s.dev.view (offOf addr) s).symm
  · intro s addr v htag
    rw [exec_busWriteSave, State.busWrite_of_tag_eq htag]
    exact (exec_decodeDeviceWrite s.dev.view (offOf addr) v s).symm

/-- Settles O19: a flash word's row and SRAM_WRITE are both the device's write. -/
theorem flashWordsAreDataOnSram : Obligations.FlashWordsAreDataOnSram := by
  intro i off v s d hi _
  rw [exec_flashWord hi, exec_sramWrite]

/-! ### What a read sees of the device -/

/-- The reply of `read_byte`, given the device's own read replies (R100). -/
def busReply (addr : BusAddr) (cfg : Config) (read : Offset → ReadReply) : ReadReply :=
  if tagOf addr = cfg.saveTag then read (offOf addr) else ⟨0xFF#8, [⟨.unmappedRead, .busRead addr⟩]⟩

theorem State.busRead_eq_busReply (s : State) (addr : BusAddr) :
    s.busRead addr = s.reply (busReply addr s.cfg s.dev.read) := by
  unfold busReply
  by_cases htag : tagOf addr = s.cfg.saveTag
  · rw [State.busRead_of_tag_eq htag, if_pos htag]
  · rw [State.busRead_of_tag_ne htag, if_neg htag]
    rfl

/-- A read row's reply takes nothing of the block but the configuration and the device's own read replies. -/
theorem exec_read_dependsOn {i : Instr} (h : isRead i = true) :
    ∃ r : Config → (Offset → ReadReply) → ReadReply,
      ∀ s : State, exec i s = whenLive s (s.reply (r s.cfg s.dev.read)) := by
  cases i with
  | busReadSave addr => exact ⟨busReply addr, fun s => by rw [exec_busReadSave, State.busRead_eq_busReply]⟩
  | busReadUnmapped addr => exact ⟨busReply addr, fun s => by rw [exec_busReadUnmapped, State.busRead_eq_busReply]⟩
  | sramRead off => exact ⟨fun _ read => read off, exec_sramRead off⟩
  | flashReadData off => exact ⟨fun _ read => read off, exec_flashReadData off⟩
  | flashReadChipId off => exact ⟨fun _ read => read off, exec_flashReadChipId off⟩
  | _ => cases h

/-- Settles O23: a flash's read replies do not take the protocol state. -/
theorem readsDoNotSeeTheProtocolState : Obligations.ReadsDoNotSeeTheProtocolState := by
  intro i s t f p hi hd h
  obtain ⟨r, hr⟩ := exec_read_dependsOn hi
  have hlive := (executes_of_next h).1
  have hread : s.dev.read = (Device.flash { f with proto := p }).read := by rw [hd]; rfl
  rw [hr, whenLive_of_live hlive] at h
  rw [reply_next h, hr, whenLive_of_live (by exact hlive), hread]
  rfl

/-! ### The ignored offset bits (R54) -/

/-- The effect of a write but for the operands that its events record. -/
def Effect.codes {α : Type} (e : Effect α) : (α × List DiagCode) ⊕ Fatal :=
  match e with
  | .done a ds => .inl (a, ds.map (·.code))
  | .raised f => .inr f

theorem Flash.read_byte_of_a16_eq (f : Flash) {off off' : Offset} (h : a16Of off = a16Of off') :
    (f.read off).byte = (f.read off').byte := by
  cases hm : f.mode with
  | chipId => rw [Flash.read_of_chipId hm, Flash.read_of_chipId hm, Flash.readChipId_eq, Flash.readChipId_eq, h]
  | data =>
    rw [Flash.read_of_data hm, Flash.read_of_data hm]
    unfold Flash.readData
    rw [h]
    dsimp only
    split <;> rfl

theorem Flash.write_codes_of_a16_eq (f : Flash) {off off' : Offset} (h : a16Of off = a16Of off') (v : Byte) :
    (f.write off v).codes = (f.write off' v).codes := by
  have hexit : (f.idExit off v).codes = (f.idExit off' v).codes := by unfold Flash.idExit; split <;> rfl
  have hsector : f.sectorErase off = f.sectorErase off' := by simp only [Flash.sectorErase, h]
  have hprogram : (f.programData off v).codes = (f.programData off' v).codes := by
    simp only [Flash.programData, h]; split <;> rfl
  have hselect : (f.bankSelect off v).codes = (f.bankSelect off' v).codes := by unfold Flash.bankSelect; split <;> rfl
  have hbad : f.bankSelectBadAddr off v = f.bankSelectBadAddr off' v := by simp only [Flash.bankSelectBadAddr, h]
  have hreject : (f.reject off v).codes = (f.reject off' v).codes := rfl
  unfold Flash.write
  rw [h]
  cases f.proto with
  | wfc st c => simp only [apply_ite Effect.codes, hexit, hsector, hreject]
  | writeSingleByte => exact hprogram
  | bankChange => simp only [apply_ite Effect.codes, hselect, hbad]

theorem Effect.codes_map {α β : Type} (g : α → β) {e e' : Effect α} (h : e.codes = e'.codes) :
    (e.map g).codes = (e'.map g).codes := by
  cases e <;> cases e' <;> simp_all [Effect.codes]

/-- Effects with the same value and codes answer alike but for the operands that their events record. -/
theorem commit_of_codes_eq {s t : State} {e e' : Effect Device} (h : e.codes = e'.codes) (ht : s.commit e = .next t) :
    ∃ t', s.commit e' = .next t' ∧ t'.dev = t.dev ∧ t'.fault = t.fault ∧
      t'.out.diags.map (·.code) = t.out.diags.map (·.code) := by
  rcases commit_next ht with ⟨d, ds, rfl, rfl⟩ | ⟨x, rfl, rfl⟩
  · cases e' with
    | done d' ds' =>
      simp only [Effect.codes, Sum.inl.injEq, Prod.mk.injEq] at h
      exact ⟨_, rfl, h.1.symm, rfl, h.2.symm⟩
    | raised x => cases h
  · cases e' with
    | done d' ds' => cases h
    | raised x' =>
      obtain rfl := Sum.inr.inj h
      exact ⟨_, rfl, rfl, rfl, rfl⟩

/-- Settles O24: the read takes the offset's low 16 bits only, and the write does so but for the offset its events record. -/
theorem flashIgnoresOffsetHighBits : Obligations.FlashIgnoresOffsetHighBits := by
  intro s f off off' hd ha
  constructor
  · rw [hd]
    exact f.read_byte_of_a16_eq ha
  · intro v t h
    have hlive := (executes_of_next h).1
    have hcodes : (s.dev.write off v).codes = (s.dev.write off' v).codes := by
      rw [hd]
      exact Effect.codes_map Device.flash (f.write_codes_of_a16_eq ha v)
    rw [exec_busWriteSave, whenLive_of_live hlive, State.busWrite_of_tag_eq (tagOf_windowAddr ..), offOf_windowAddr] at h
    rw [exec_busWriteSave, whenLive_of_live hlive, State.busWrite_of_tag_eq (tagOf_windowAddr ..), offOf_windowAddr]
    exact commit_of_codes_eq hcodes h

end Sys2Proof.Machine
end

section
/-! PROOFS. The flash command and data rows (spec/42_flash_commands.md, spec/43_flash_data_phase.md): each in its own state,
and in the states that do not list it. -/

namespace Sys2Proof.Machine

/-! ### A flash word on a live block that holds a flash device -/

section FlashWord

variable {i : Instr} {off : Offset} {v : Byte} {s : State} {f : Flash}

/-- A flash word whose write completes installs the new flash. -/
theorem exec_flashWord_done (hi : i.flashWord = some (off, v)) (hlive : s.fault = none) (hd : s.dev = .flash f) {g : Flash}
    {ds : List Diag} (hw : f.write off v = .done g ds) :
    exec i s = .next { s with dev := .flash g, out := ⟨none, ds⟩ } := by
  rw [exec_flashWord_next hi hlive hd, hw]

/-- A flash word whose write raises a fault records it. -/
theorem exec_flashWord_raised (hi : i.flashWord = some (off, v)) (hlive : s.fault = none) (hd : s.dev = .flash f) {x : Fatal}
    (hw : f.write off v = .raised x) : exec i s = .next { s with fault := some x, out := ⟨none, []⟩ } := by
  rw [exec_flashWord_next hi hlive hd, hw]

/-- A flash word that the protocol state does not accept changes nothing and emits W5 (R140). -/
theorem exec_flashWord_not_accepts (hi : i.flashWord = some (off, v)) (hlive : s.fault = none) (hd : s.dev = .flash f)
    (hacc : accepts f.proto (a16Of off) v = false) :
    exec i s = .next { s with out := ⟨none, [⟨.rejectedCommand, .devWrite off v⟩]⟩ } := by
  rw [exec_flashWord_done hi hlive hd (Flash.write_of_not_accepts hacc), ← State.install_of_dev_eq hd]
  rfl

end FlashWord

/-! ### The command rows in the states that list them -/

/-- Settles O25: the dispatch of R130 at the two unlock words. -/
theorem unlockAdvancesAndKeepsContext : Obligations.UnlockAdvancesAndKeepsContext := by
  intro s f c hi hlive hd
  exact ⟨fun hp => exec_flashWord_done rfl hlive hd (Flash.write_unlock1 hp (a16Of_flashOff ..)),
    fun hp => exec_flashWord_done rfl hlive hd (Flash.write_unlock2 hp (a16Of_flashOff ..))⟩

/-- Settles O26: W6's condition is that the read mode is not chip-ID. -/
theorem chipIdCommandsSwitchTheReadMode : Obligations.ChipIdCommandsSwitchTheReadMode := by
  intro s f hi hlive hd hp
  refine ⟨exec_flashWord_done rfl hlive hd (Flash.write_idEnter hp (a16Of_flashOff ..)), ?_⟩
  rw [exec_flashWord_done rfl hlive hd (Flash.write_idExit hp (a16Of_flashOff ..))]
  cases f.mode <;> rfl

/-- Settles O27: the dispatch of R130 at the three arming words. -/
theorem armCommandsSetTheProtocolState : Obligations.ArmCommandsSetTheProtocolState := by
  intro s f hi hlive hd hp
  exact ⟨exec_flashWord_done rfl hlive hd (Flash.write_eraseArm hp (a16Of_flashOff ..)),
    exec_flashWord_done rfl hlive hd (Flash.write_programArm hp (a16Of_flashOff ..)),
    exec_flashWord_done rfl hlive hd (Flash.write_bankArm hp (a16Of_flashOff ..))⟩

/-! ### The erases -/

/-- After a chip erase every index below the length reads 0xFF (R136). -/
theorem Memory.read_erase_all (m : Memory) (a : Nat) :
    (m.erase 0 m.len).read .flash a = if a < m.len then 0xFF#8 else m.read .flash a := by
  simp only [Memory.read_erase, Nat.zero_le, true_and]
  rfl

section SectorErase

variable {f : Flash} {off : Offset}

/-- A sector inside the buffer is erased (R137). -/
theorem Flash.sectorErase_of_le (h : sectorBase f.bank (a16Of off) + 4096 ≤ f.buf.len) :
    f.sectorErase off = .done { f with
      buf := f.buf.erase (sectorBase f.bank (a16Of off)) (sectorBase f.bank (a16Of off) + 4096)
      proto := .idle } [] := if_neg (Nat.not_lt.mpr h)

/-- A sector beyond the buffer raises F3 (R137, decision D11). -/
theorem Flash.sectorErase_of_lt (h : f.buf.len < sectorBase f.bank (a16Of off) + 4096) :
    f.sectorErase off = .raised .sectorEraseOutOfRange := if_pos h

end SectorErase

/-- The sector base as R57 computes it. -/
theorem sectorBase_eq (bank : Nat) (a : FlashAddr) : sectorBase bank a = bank * 65536 + a.toNat / 4096 * 4096 := by
  rw [sectorBase, sectorOf_eq]

/-- Settles O28: the new buffer is the old one with every index below the length erased. -/
theorem chipEraseFillsTheWholeBuffer : Obligations.ChipEraseFillsTheWholeBuffer := by
  intro s f hi hlive hd hp
  exact ⟨_, exec_flashWord_done rfl hlive hd (Flash.write_chipErase hp (a16Of_flashOff ..)), Memory.len_erase ..,
    f.buf.read_erase_all⟩

/-- Settles O29: the sector base decides whether the new buffer is the old one with one sector erased, or F3 is raised. -/
theorem sectorEraseFillsOneSector : Obligations.SectorEraseFillsOneSector := by
  intro s f off hlive hd hp
  rw [← sectorBase_eq]
  intro base
  have hw := Flash.write_sectorErase hp off
  constructor
  · intro hle
    exact ⟨_, exec_flashWord_done rfl hlive hd (hw.trans (Flash.sectorErase_of_le hle)), Memory.len_erase ..,
      f.buf.read_erase .flash base (base + 4096)⟩
  · intro hlt
    exact exec_flashWord_raised rfl hlive hd (hw.trans (Flash.sectorErase_of_lt hlt))

/-! ### Rejected words -/

/-- Settles O30: the hypotheses say that the state accepts the word in none of its ways. -/
theorem rejectedWriteChangesNothing : Obligations.RejectedWriteChangesNothing := by
  intro s f st c off v hlive hd hp hunlock1 hunlock2 hcommand hchip hsector
  refine exec_flashWord_not_accepts rfl hlive hd ?_
  rw [hp]
  cases st with
  | zero => simpa [accepts] using hunlock1
  | one => simpa [accepts] using hunlock2
  | two =>
    cases c with
    | none => simpa [accepts, and_assoc] using hcommand
    | erase =>
      simp only [true_and] at hchip hsector
      simpa [accepts, hsector] using hchip

/-- In a `WFC` state a command row's word is accepted exactly where the row is listed (R83, R87). -/
theorem accepts_eq_rowApplies {i : Instr} {off : Offset} {v : Byte} (hrow : isCommandRow i = true)
    (hi : i.flashWord = some (off, v)) (m : ReadMode) (st : UnlockStep) (c : Context) :
    accepts (.wfc st c) (a16Of off) v = rowApplies (.flash m (.wfc st c)) i := by
  cases i <;> simp only [isCommandRow, reduceCtorEq] at hrow <;>
    simp only [Instr.flashWord, Option.some.injEq, Prod.mk.injEq] at hi <;> obtain ⟨rfl, rfl⟩ := hi <;>
    cases st <;> cases c <;> simp [accepts, rowApplies, DeviceView.proto?]

/-- Settles O31: a command row's word is accepted only where the row is listed. -/
theorem commandsOutsideTheirStateAreRejected : Obligations.CommandsOutsideTheirStateAreRejected := by
  intro i off v s f st c hrow hi hlive hd hp happ
  refine exec_flashWord_not_accepts hi hlive hd ?_
  rw [hd, Device.view, hp] at happ
  rw [hp, accepts_eq_rowApplies hrow hi f.mode, happ]

/-! ### The armed states -/

section BankSelect

variable {f : Flash} (off : Offset) {b : Byte}

/-- A legal bank is set (R164). -/
theorem Flash.bankSelect_of_lt (h : b.toNat < numBanks f.buf.len) :
    f.bankSelect off b = .done { f with bank := b.toNat, proto := .idle } [] :=
  if_neg (by simpa [bankOutOfRange] using h)

/-- A value that is no bank emits W7 and leaves the bank (R163). -/
theorem Flash.bankSelect_of_le (h : numBanks f.buf.len ≤ b.toNat) :
    f.bankSelect off b = .done { f with proto := .idle } [⟨.bankOutOfRange, .devWrite off b⟩] :=
  if_pos (by simpa [bankOutOfRange] using h)

end BankSelect

/-- Settles O34: the number of banks decides which of the two the device does. -/
theorem bankSelectSetsALegalBank : Obligations.BankSelectSetsALegalBank := by
  intro s f hi b hlive hd hp
  have hw := Flash.write_bankSelect hp (a16Of_flashOff hi 0#16) b
  exact ⟨fun h => exec_flashWord_done rfl hlive hd (hw.trans (Flash.bankSelect_of_lt _ h)),
    fun h => exec_flashWord_done rfl hlive hd (hw.trans (Flash.bankSelect_of_le _ h))⟩

/-- Settles O37: in `BCH` the dispatch tests the address before all else. -/
theorem armedBankSelectStopsOnOtherAddresses : Obligations.ArmedBankSelectStopsOnOtherAddresses := by
  intro i off v s f hi hlive hd hp ha
  exact exec_flashWord_raised hi hlive hd (Flash.write_bankSelectBadAddr hp ha v)

/-- Settles O35: BANK_SELECT_BADADDR is one of the words of O37. -/
theorem badBankAddressEntersF1 : Obligations.BadBankAddressEntersF1 := by
  intro s f off v hlive hd hp ha
  exact armedBankSelectStopsOnOtherAddresses _ off v s f rfl hlive hd hp ha

/-- Settles O36: both rows are the device's write of the word. -/
theorem armedProgramCapturesEveryWord : Obligations.ArmedProgramCapturesEveryWord := by
  intro i off v s f hi _ _
  rw [exec_flashWord hi, exec_flashWord (i := .programData off v) rfl]

end Sys2Proof.Machine
end

section
/-! PROOFS. What becomes of a flash device over all instructions that do not replace it (spec/10_state.md R25 to R28,
spec/70_reset_and_hazards.md R262). -/

namespace Sys2Proof.Machine

/-- An instruction that does not replace a flash device leaves it, or is one completed write, and then it is no read and no
inspection. -/
theorem exec_flash_next {i : Instr} {s t : State} {f : Flash} (hi : replacesDevice i = false) (hd : s.dev = .flash f)
    (h : exec i s = .next t) : ∃ g : Flash, t.dev = .flash g ∧
      (g = f ∨ (isRead i = false ∧ isInspection i = false) ∧ ∃ off v ds, f.WriteDone off v g ds) := by
  cases (executes_of_next h).2 with
  | write hword hw =>
    rw [hd] at hw
    obtain ⟨g, rfl, hdone⟩ := Device.write_flash_done hw
    obtain ⟨hread, hinspect, _⟩ := access_of_writeWord hword
    exact ⟨g, rfl, .inr ⟨⟨hread, hinspect⟩, _, _, _, hdone⟩⟩
  | substitute hsub => subst hsub; cases hi
  | restore hres => subst hres; cases hi
  | _ => exact ⟨f, hd, .inl rfl⟩

section WriteDone

variable {f g : Flash} {off : Offset} {v : Byte} {ds : List Diag}

/-- The buffer changes only by an erase in `WFC(2,Erase)` or by the program of one byte in `WSB`. -/
theorem Flash.WriteDone.buf_cases (h : f.WriteDone off v g ds) :
    g.buf = f.buf ∨ (f.proto = .wfc .two .erase ∧ ∃ lo hi, g.buf = f.buf.erase lo hi) ∨
    (f.proto = .writeSingleByte ∧ ∃ a, g.buf = f.buf.write .flash a (f.buf.read .flash a &&& v)) := by
  cases h with
  | chipErase hp => exact .inr (.inl ⟨hp, _, _, rfl⟩)
  | sectorErase hp => exact .inr (.inl ⟨hp, _, _, rfl⟩)
  | program hp => exact .inr (.inr ⟨hp, _, rfl⟩)
  | _ => exact .inl rfl

theorem Flash.WriteDone.len_eq (h : f.WriteDone off v g ds) : g.buf.len = f.buf.len := by
  rcases h.buf_cases with hb | ⟨_, _, _, hb⟩ | ⟨_, _, hb⟩ <;> rw [hb] <;> rfl

/-- Outside `WFC(2,Erase)` no bit is set: every byte stays below the old one. -/
theorem Flash.WriteDone.read_and_eq (h : f.WriteDone off v g ds) (hp : f.proto ≠ .wfc .two .erase) (a : Nat) :
    g.buf.read .flash a &&& f.buf.read .flash a = g.buf.read .flash a := by
  rcases h.buf_cases with hb | ⟨hp', _⟩ | ⟨_, b, hb⟩
  · rw [hb, BitVec.and_self]
  · exact absurd hp' hp
  · rw [hb, Memory.read_write]
    split
    case isTrue hab => rw [hab, BitVec.and_assoc, BitVec.and_comm v, ← BitVec.and_assoc, BitVec.and_self]
    case isFalse => exact BitVec.and_self

end WriteDone

/-- Settles O38: a write sets no bit outside `WFC(2,Erase)` (`Flash.WriteDone.read_and_eq`), and nothing else reaches the
buffer. -/
theorem flashBitsAreSetOnlyByErase : Obligations.FlashBitsAreSetOnlyByErase := by
  intro i s t f hi hd h
  obtain ⟨g, hg, rfl | ⟨_, off, v, ds, hw⟩⟩ := exec_flash_next hi hd h
  · exact ⟨g, hg, rfl, fun _ _ => BitVec.and_self, fun _ _ => rfl⟩
  · refine ⟨g, hg, hw.len_eq, hw.read_and_eq, fun herase hprogram => ?_⟩
    rcases hw.buf_cases with hb | ⟨hp, _⟩ | ⟨hp, _⟩
    · exact hb
    · exact absurd hp herase
    · exact absurd hp hprogram

/-- Settles O39: of the writes only BANK_SELECT sets the bank, and only ID_ENTER and ID_EXIT the mode; each ends idle. -/
theorem flashRegistersChangeOnlyByTheirCommands : Obligations.FlashRegistersChangeOnlyByTheirCommands := by
  intro i s t f hi hd h
  obtain ⟨g, hg, rfl | ⟨⟨hread, hinspect⟩, off, v, ds, hw⟩⟩ := exec_flash_next hi hd h
  · exact ⟨g, hg, fun hne => absurd rfl hne, fun hne => absurd rfl hne, fun _ => rfl⟩
  · refine ⟨g, hg, ?_, ?_, fun hro => by simp [hread, hinspect] at hro⟩
    · cases hw with
      | bankSelect hp => exact fun _ => ⟨hp, rfl⟩
      | _ => exact fun hne => absurd rfl hne
    · cases hw with
      | idEnter hp | idExit hp => exact fun _ => ⟨hp, rfl⟩
      | _ => exact fun hne => absurd rfl hne

/-- Settles O32: in `WFC(s,Erase)` a write is an unlock, a rejected word or, at step 2, one of the two erases. -/
theorem eraseContextEndsOnlyWithAnErase : Obligations.EraseContextEndsOnlyWithAnErase := by
  intro i s t f st hi hd hp h
  obtain ⟨g, hg, rfl | ⟨_, off, v, ds, hw⟩⟩ := exec_flash_next hi hd h
  · exact ⟨g, hg, rfl, rfl, .inl ⟨st, hp, rfl⟩⟩
  · refine ⟨g, hg, ?_⟩
    cases hw with
    | unlock1 hp' | unlock2 hp' =>
      cases hp.symm.trans hp'
      exact ⟨rfl, rfl, .inl ⟨_, rfl, rfl⟩⟩
    | reject | programBeyond => exact ⟨rfl, rfl, .inl ⟨st, hp, rfl⟩⟩
    | chipErase hp' =>
      cases hp.symm.trans hp'
      refine ⟨rfl, rfl, .inr ⟨rfl, rfl, .inl fun a ha => ?_⟩⟩
      rw [Memory.read_erase_all, if_pos ha]
    | sectorErase hp' =>
      cases hp.symm.trans hp'
      refine ⟨rfl, rfl, .inr ⟨rfl, rfl, .inr ⟨sectorOf (a16Of off), sectorOf_lt _, fun a hlo hhi => ?_⟩⟩⟩
      exact (Memory.read_erase ..).trans (if_pos ⟨hlo, hhi⟩)
    | idEnter hp' | idExit hp' | arm hp' | program hp' | bankSelect hp' | bankBeyond hp' => cases hp.symm.trans hp'

end Sys2Proof.Machine
end

section
/-! PROOFS. Device substitution (spec/40_memory_map.md R104 to R109), the fault F2 of an inspection, and snapshot and restore
(spec/45_host_interface.md R203 to R205). -/

namespace Sys2Proof.Machine

/-! ### Substitution -/

/-- A seeded buffer reads as the seed if its length is right, and else as the fill (R108). -/
theorem seeded_read (k : Kind) (seed : Option (List Byte)) (n a : Nat) :
    (seeded k seed n).1.read k a = seedByte seed n (Memory.unlisted k) a := by
  cases seed with
  | none => rfl
  | some bytes =>
    simp only [seeded, seedByte]
    split
    · exact Memory.read_ofBytes k bytes a
    · rfl

/-- The flag of a seeded buffer is W9's condition (R108). -/
theorem seeded_mismatch (k : Kind) (seed : Option (List Byte)) (n : Nat) : (seeded k seed n).2 = seedMismatch seed n := by
  cases seed with
  | none => rfl
  | some bytes =>
    simp only [seeded, seedMismatch]
    split
    case isTrue h => simp [h]
    case isFalse h => simp [h]

/-- W10's condition, for a type that builds an Sram device (R107). -/
theorem unsupportedType_of_ne_flash {t : SaveTypeInput} (h64 : t ≠ .named .flash64K) (h128 : t ≠ .named .flash128K) :
    unsupportedType t = !decide (t = .named .none ∨ t = .named .sram) := by
  rcases t with (_ | _ | _ | _ | _ | _) | _
  case named.flash64K => exact absurd rfl h64
  case named.flash128K => exact absurd rfl h128
  all_goals rfl

/-- Settles O44: the device is `buildSram`'s, over a seeded buffer of 65536 bytes. -/
theorem substitutionBuildsSram : Obligations.SubstitutionBuildsSram := by
  intro s t seed hlive h64 h128
  refine ⟨(seeded .sram seed 65536).1, ?_, (seeded_wf .sram seed 65536).2, seeded_read .sram seed 65536⟩
  have hmismatch : (buildSram seed).2 = seedMismatch seed 65536 := seeded_mismatch .sram seed 65536
  rw [exec_setSaveDevice hlive, substitutionDiags, buildDevice_of_ne_flash h64 h128, hmismatch,
    unsupportedType_of_ne_flash h64 h128]
  by_cases ht : t = .named .none ∨ t = .named .sram
  · rw [if_pos ht, decide_eq_true ht]
    rfl
  · rw [if_neg ht, decide_eq_false ht]
    rfl

/-- The two flash types build a flash device of their length, and emit W9 only (R106). -/
theorem buildDevice_of_flash {t : SaveTypeInput} {n : Nat}
    (h : (t = .named .flash64K ∧ n = 65536) ∨ (t = .named .flash128K ∧ n = 131072)) (seed : Option (List Byte)) :
    buildDevice t seed = buildFlash seed n ∧ unsupportedType t = false := by
  rcases h with ⟨rfl, rfl⟩ | ⟨rfl, rfl⟩ <;> exact ⟨rfl, rfl⟩

/-- Settles O45: the device is `buildFlash`'s, over a seeded buffer of the type's length. -/
theorem substitutionBuildsFlash : Obligations.SubstitutionBuildsFlash := by
  intro s t n seed hlive ht
  obtain ⟨hbuild, hsupported⟩ := buildDevice_of_flash ht seed
  refine ⟨(seeded .flash seed n).1, ?_, (seeded_wf .flash seed n).2, seeded_read .flash seed n⟩
  have hmismatch : (buildFlash seed n).2 = seedMismatch seed n := seeded_mismatch .flash seed n
  rw [exec_setSaveDevice hlive, substitutionDiags, hbuild, hmismatch, hsupported]
  rfl

/-! ### Type and label -/

/-- Settles O47: the three listed lengths identify the device, and any other flash length raises F2. -/
theorem typeAndLabelDeriveFromTheLength : Obligations.TypeAndLabelDeriveFromTheLength := by
  intro s hlive
  refine ⟨fun d hd => ?_, fun f hd hlen => ?_, fun f hd hlen => ?_, fun f hd h64 h128 => ?_⟩
  · exact exec_identification hlive (hd ▸ Device.identifiesAs_sram d)
  · exact exec_identification hlive (hd ▸ Device.identifiesAs_flash64K hlen)
  · exact exec_identification hlive (hd ▸ Device.identifiesAs_flash128K hlen)
  · obtain ⟨htype, hlabel⟩ := Device.unidentified_flash h64 h128
    have hget : exec .getType s = s.answer (s.dev.saveType.map .saveType) := whenLive_of_live hlive _
    have hstorage : exec .storageType s = s.answer (s.dev.label.map .label) := whenLive_of_live hlive _
    rw [← hd] at htype hlabel
    rw [hget, hstorage, htype, hlabel]
    exact ⟨rfl, rfl⟩

/-! ### Snapshot -/

/-- A protocol state comes back from its record (R203). -/
theorem protoOfRecord_recordProto (p : Proto) : protoOfRecord (recordProto p) = some p := by
  rcases p with ⟨_ | _ | _, _ | _⟩ | _ | _ <;> rfl

/-- SNAPSHOT answers the device's record. -/
theorem exec_snapshot {s : State} (hlive : s.fault = none) :
    exec .snapshot s = .next { s with out := ⟨some (.snapshot s.dev.snapshot), []⟩ } := whenLive_of_live hlive _

/-- Settles O50: the record's protocol field stands for the protocol state it was made from. -/
theorem snapshotHoldsTheDevice : Obligations.SnapshotHoldsTheDevice := by
  intro s hlive
  rw [exec_snapshot hlive]
  refine ⟨fun d hd => by rw [hd]; rfl, fun f hd => ⟨recordProto f.proto, by rw [hd]; rfl, protoOfRecord_recordProto _⟩⟩

/-! ### Restore -/

/-- A protocol field stands for no state exactly if its step or its context is outside the listed values (R205). -/
theorem protoOfRecord_wfc_eq_none (n : Nat) (c : RecordContext) :
    protoOfRecord (.wfc n c) = none ↔ 2 < n ∨ c = .other := by
  rcases n with _ | _ | _ | n <;> cases c <;> simp [protoOfRecord, stepOfNumber, contextOfRecord]

theorem deviceOfRecord_flash_eq_none (buf : List Byte) (bank : Nat) (mode : ReadMode) (proto : RecordProto) :
    deviceOfRecord (.flash buf bank mode proto) = none ↔
      (buf.length ≠ 65536 ∧ buf.length ≠ 131072) ∨ buf.length / 65536 ≤ bank ∨ protoOfRecord proto = none := by
  have hlen : (buf.length = 65536 ∨ buf.length = 131072) ↔ ¬(buf.length ≠ 65536 ∧ buf.length ≠ 131072) := by tauto
  have hbank : bank < numBanks buf.length ↔ ¬(buf.length / 65536 ≤ bank) := Nat.not_le.symm
  simp only [deviceOfRecord, hlen, hbank]
  split
  case isTrue h => simp only [Option.map_eq_none_iff, h.1, h.2, false_or]
  case isFalse h => tauto

/-- A record stands for no device exactly if R205 lists it. -/
theorem deviceOfRecord_eq_none (r : Record) : deviceOfRecord r = none ↔ recordInvalid r := by
  cases r with
  | sram buf => simp [deviceOfRecord]
  | flash buf bank mode proto =>
    rw [deviceOfRecord_flash_eq_none]
    cases proto with
    | wfc n c => rw [protoOfRecord_wfc_eq_none]
    | writeSingleByte => simp [protoOfRecord, recordInvalid]
    | bankChange => simp [protoOfRecord, recordInvalid]

/-- Settles O51: restore refuses exactly the records that stand for no device. -/
theorem restoreRefusesInvalidRecords : Obligations.RestoreRefusesInvalidRecords := by
  intro s r hlive
  rw [← deviceOfRecord_eq_none]
  cases hd : deviceOfRecord r with
  | none => simp [exec_restore_none hlive hd]
  | some d => simp [exec_restore_some hlive hd]

/-- The bytes of a buffer made of bytes are those bytes. -/
theorem Memory.bytes_ofBytes (k : Kind) (bs : List Byte) : (Memory.ofBytes k bs).bytes k = bs := by
  refine List.ext_getElem (by simp) fun i h₁ h₂ => ?_
  rw [Memory.getElem_bytes, Memory.read_ofBytes, List.getD_eq_getElem _ _ h₂]

theorem deviceOfRecord_sram_eq_some {buf : List Byte} {d : Device} (h : deviceOfRecord (.sram buf) = some d) :
    d = .sram { buf := Memory.ofBytes .sram buf } := by
  simp only [deviceOfRecord, Option.ite_none_right_eq_some, Option.some.injEq] at h
  exact h.2.symm

theorem deviceOfRecord_flash_eq_some {buf : List Byte} {bank : Nat} {mode : ReadMode} {proto : RecordProto} {d : Device}
    (h : deviceOfRecord (.flash buf bank mode proto) = some d) : ∃ p, protoOfRecord proto = some p ∧
      d = .flash { buf := Memory.ofBytes .flash buf, bank := bank, mode := mode, proto := p } := by
  simp only [deviceOfRecord, Option.ite_none_right_eq_some, Option.map_eq_some_iff] at h
  obtain ⟨_, p, hp, hd⟩ := h
  exact ⟨p, hp, hd.symm⟩

/-- Settles O52: a valid record stands for a device, over the buffer of the record's bytes. -/
theorem restoreInstallsTheRecordedDevice : Obligations.RestoreInstallsTheRecordedDevice := by
  intro s r hlive hvalid
  obtain ⟨d, hd⟩ := Option.ne_none_iff_exists'.mp (mt (deviceOfRecord_eq_none r).mp hvalid)
  refine ⟨d, exec_restore_some hlive hd, ?_⟩
  cases r with
  | sram buf =>
    obtain rfl := deviceOfRecord_sram_eq_some hd
    exact ⟨Memory.bytes_ofBytes .sram buf, _, rfl⟩
  | flash buf bank mode proto =>
    obtain ⟨p, hp, rfl⟩ := deviceOfRecord_flash_eq_some hd
    exact ⟨Memory.bytes_ofBytes .flash buf, _, rfl, rfl, rfl, hp⟩

/-- A device that meets the invariants comes back from its snapshot (R204). -/
theorem deviceOfRecord_snapshot {d : Device} (h : d.wf) : deviceOfRecord d.snapshot = some d := by
  cases d with
  | sram x =>
    obtain ⟨hwf, hlen⟩ := h
    simp [deviceOfRecord, Device.snapshot, hlen, Memory.ofBytes_bytes hwf]
  | flash f =>
    obtain ⟨hwf, hlen, hbank⟩ := h
    simp [deviceOfRecord, Device.snapshot, hlen, hbank, Memory.ofBytes_bytes hwf, protoOfRecord_recordProto]

/-- Settles O53: the snapshot's record stands for the snapshotted device, which meets the invariants. -/
theorem snapshotThenRestoreIsTheSameDevice : Obligations.SnapshotThenRestoreIsTheSameDevice := by
  intro s u ⟨hinv, hlive⟩ hu
  exact ⟨_, s.dev.snapshot, exec_snapshot hlive, rfl, rfl, exec_restore_some hu (deviceOfRecord_snapshot hinv)⟩

end Sys2Proof.Machine
end

section
/-! PROOFS. Command sequences (spec/30_encoding.md R89): a step on a presented window access to a flash device, the unlock
sequence with its command, and the four worked sequences. -/

namespace Sys2Proof.Machine

/-! ### A step on a presented access to a flash device -/

/-- `s` with flash device `f`, with `rs` presented and `o` put out: what changes along a command sequence. -/
def State.onFlash (s : State) (f : Flash) (rs : List Request) (o : Output) : State :=
  { s with dev := .flash f, pending := rs, out := o }

theorem State.eq_onFlash {s : State} {f : Flash} {rs : List Request} (hd : s.dev = .flash f) (hp : s.pending = rs) :
    s = s.onFlash f rs s.out := by
  subst hp
  rw [State.onFlash, ← hd]

section WindowStep

variable {s : State} (hlive : s.fault = none) {f : Flash} (rest : List Request) (o : Output)
include hlive

/-- A presented window write is the flash's own write (R84, R101). -/
theorem steps_sb {a : FlashAddr} {v : Byte} {g : Flash} {ds : List Diag} (hw : f.write (flashOff 0#8 a) v = .done g ds)
    (n : Nat) : steps (n + 1) (s.onFlash f (s.sb a v :: rest) o) = steps n (s.onFlash g rest ⟨none, ds⟩) := by
  refine steps_succ_of_next ?_ n
  have hdecode := decode_writeRequest_window s.cfg (Device.flash f).view (flashOff 0#8 a) v
  have hwrite : (Device.flash f).write (flashOff 0#8 a) v = .done (.flash g) ds := congrArg (Effect.map Device.flash) hw
  calc step (s.onFlash f (s.sb a v :: rest) o)
    _ = exec (decodeDeviceWrite (Device.flash f).view (flashOff 0#8 a) v) (s.onFlash f rest o) :=
      step_of_accepted (s := s.onFlash f (_ :: rest) o) hlive rfl hdecode
    _ = (s.onFlash f rest o).commit ((Device.flash f).write (flashOff 0#8 a) v) :=
      (exec_decodeDeviceWrite ..).trans (whenLive_of_live hlive _)
    _ = .next (s.onFlash g rest ⟨none, ds⟩) := by rw [hwrite]; rfl

/-- A presented window read in data mode answers the byte of the current bank (R181). -/
theorem steps_read_data (hm : f.mode = .data) {a : FlashAddr} (hidx : storageIndex f.bank a < f.buf.len) {b : Byte}
    (hb : f.buf.read .flash (storageIndex f.bank a) = b) (n : Nat) :
    steps (n + 1) (s.onFlash f (readRequest (windowAddr s.cfg.saveTag (flashOff 0#8 a)) :: rest) o) =
      steps n (s.onFlash f rest ⟨some (.byte b), []⟩) := by
  refine steps_succ_of_next ?_ n
  have hdecode := decode_readRequest_window s.cfg (Device.flash f).view (flashOff 0#8 a)
  have hread : f.read (flashOff 0#8 a) = ⟨b, []⟩ := by
    rw [Flash.read_of_data hm, Flash.readData_of_lt (by rwa [a16Of_flashOff]), a16Of_flashOff, hb]
  calc step (s.onFlash f (readRequest (windowAddr s.cfg.saveTag (flashOff 0#8 a)) :: rest) o)
    _ = exec (decodeDeviceRead (Device.flash f).view (flashOff 0#8 a)) (s.onFlash f rest o) :=
      step_of_accepted (s := s.onFlash f (_ :: rest) o) hlive rfl hdecode
    _ = (s.onFlash f rest o).reply (f.read (flashOff 0#8 a)) :=
      (exec_decodeDeviceRead ..).trans (whenLive_of_live hlive _)
    _ = .next (s.onFlash f rest _) := by rw [hread]; rfl

/-- The unlock sequence and a third write, which finds the flash in `WFC(2,c)` (R89, R131, R132). -/
theorem steps_unlocked {c : Context} (hproto : f.proto = .wfc .zero c) {a : FlashAddr} {v : Byte} {g : Flash}
    {ds : List Diag} (hw : Flash.write { f with proto := .wfc .two c } (flashOff 0#8 a) v = .done g ds) (n : Nat) :
    steps (n + 3) (s.onFlash f (s.sb 0x5555#16 0xAA#8 :: s.sb 0x2AAA#16 0x55#8 :: s.sb a v :: rest) o) =
      steps n (s.onFlash g rest ⟨none, ds⟩) := by
  have hunlock1 : f.write (flashOff 0#8 0x5555#16) 0xAA#8 = .done { f with proto := .wfc .one c } [] :=
    Flash.write_unlock1 hproto (a16Of_flashOff ..)
  have hunlock2 : Flash.write { f with proto := .wfc .one c } (flashOff 0#8 0x2AAA#16) 0x55#8 =
    .done { f with proto := .wfc .two c } [] := Flash.write_unlock2 rfl (a16Of_flashOff ..)
  rw [steps_sb hlive _ _ hunlock1, steps_sb hlive _ _ hunlock2, steps_sb hlive _ _ hw]

end WindowStep

/-- Setting the protocol state that is there already changes nothing else. -/
theorem Flash.with_proto_eq {f : Flash} {p : Proto} (h : f.proto = p) (m : Memory) (b : Nat) :
    ({ f with buf := m, bank := b, proto := p } : Flash) = { f with buf := m, bank := b } := by
  rw [← h]

/-! ### The program and bank sequences -/

/-- Settles O54: PROGRAM_ARM, PROGRAM_DATA, and a read of the byte just written (`Memory.read_write`). -/
theorem programSequenceAndsTheByte : Obligations.ProgramSequenceAndsTheByte := by
  intro s f a v rest ⟨hinv, hlive⟩ hd hm hproto hp
  have hidx := (storageIndexesStayInsideTheBuffer s f a hinv hd).1
  have harm : Flash.write { f with proto := .wfc .two .none } (flashOff 0#8 0x5555#16) 0xA0#8 =
    .done { f with proto := .writeSingleByte } [] := Flash.write_programArm rfl (a16Of_flashOff ..)
  have hprogram : Flash.write { f with proto := .writeSingleByte } (flashOff 0#8 a) v =
      .done { f with buf := f.buf.write .flash (storageIndex f.bank a) (f.buf.read .flash (storageIndex f.bank a) &&& v) }
        [] := by
    rw [Flash.write_programData rfl, Flash.programData_of_lt v (by rwa [a16Of_flashOff]), a16Of_flashOff,
      Flash.with_proto_eq hproto]
  refine ⟨_, ?_, Memory.len_write .., Memory.read_write .flash f.buf _ _⟩
  calc steps 5 s
    _ = steps 5 _ := congrArg (steps 5) (State.eq_onFlash hd hp)
    _ = steps 2 _ := steps_unlocked hlive _ _ hproto harm 2
    _ = steps 1 _ := steps_sb hlive _ _ hprogram 1
    _ = steps 0 _ := steps_read_data hlive rest _ (by exact hm) (by exact hidx) (by rw [Memory.read_write, if_pos rfl]) 0

/-- Settles O57: BANK_ARM, BANK_SELECT, and a read in the new bank. -/
theorem bankSequenceMovesTheReadWindow : Obligations.BankSequenceMovesTheReadWindow := by
  intro s f b a rest ⟨hinv, hlive⟩ hd hm hproto hb hp
  have harm : Flash.write { f with proto := .wfc .two .none } (flashOff 0#8 0x5555#16) 0xB0#8 =
    .done { f with proto := .bankChange } [] := Flash.write_bankArm rfl (a16Of_flashOff ..)
  have hselect : Flash.write { f with proto := .bankChange } (flashOff 0#8 0#16) b =
      .done { f with bank := b.toNat } [] := by
    rw [Flash.write_bankSelect rfl (a16Of_flashOff ..), Flash.bankSelect_of_lt (f := { f with proto := .bankChange }) _ hb,
      Flash.with_proto_eq hproto]
  calc steps 5 s
    _ = steps 5 _ := congrArg (steps 5) (State.eq_onFlash hd hp)
    _ = steps 2 _ := steps_unlocked hlive _ _ hproto harm 2
    _ = steps 1 _ := steps_sb hlive _ _ hselect 1
    _ = steps 0 _ := steps_read_data hlive rest _ (f := { f with bank := b.toNat }) hm (storageIndex_lt hb a) rfl 0

/-! ### The erase sequences -/

/-- ERASE_ARM's sequence, the second unlock and an erase word (90_conflicts.md C4). -/
theorem steps_erase {s : State} {f : Flash} {rest : List Request} (hlive : s.fault = none) (hd : s.dev = .flash f)
    (hproto : f.proto = .idle) {a : FlashAddr} {v : Byte}
    (hp : s.pending = s.cmd 0x80#8 ++ [s.sb 0x5555#16 0xAA#8, s.sb 0x2AAA#16 0x55#8, s.sb a v] ++ rest) {m : Memory}
    (hw : Flash.write { f with proto := .wfc .two .erase } (flashOff 0#8 a) v =
      .done { f with buf := m, proto := .idle } []) :
    steps 6 s = .next { s with dev := .flash { f with buf := m }, pending := rest, out := ⟨none, []⟩ } := by
  have harm : Flash.write { f with proto := .wfc .two .none } (flashOff 0#8 0x5555#16) 0x80#8 =
    .done { f with proto := .wfc .zero .erase } [] := Flash.write_eraseArm rfl (a16Of_flashOff ..)
  rw [Flash.with_proto_eq hproto] at hw
  calc steps 6 s
    _ = steps 6 _ := congrArg (steps 6) (State.eq_onFlash hd hp)
    _ = steps 3 _ := steps_unlocked hlive _ _ hproto harm 3
    _ = steps 0 _ := steps_unlocked hlive rest _ (f := { f with proto := .wfc .zero .erase }) rfl hw 0

/-- Settles O55: beyond its length a buffer in canonical form reads as the fill, which is 0xFF too. -/
theorem chipEraseSequenceErasesEveryByte : Obligations.ChipEraseSequenceErasesEveryByte := by
  intro s f rest ⟨hinv, hlive⟩ hd hproto hp
  refine ⟨f.buf.erase 0 f.buf.len,
    steps_erase hlive hd hproto hp (Flash.write_chipErase rfl (a16Of_flashOff ..)), Memory.len_erase .., fun x => ?_⟩
  rw [Memory.read_erase_all]
  split
  case isTrue => rfl
  case isFalse hx =>
    rw [State.Inv, hd] at hinv
    exact Memory.read_of_len_le hinv.1 (Nat.not_lt.mp hx)

/-- Settles O56: the sector of a legal bank is inside the buffer, so the erase completes. -/
theorem sectorEraseSequenceErasesOneSector : Obligations.SectorEraseSequenceErasesOneSector := by
  intro s f a rest ⟨hinv, hlive⟩ hd hproto hp
  have hfits := (storageIndexesStayInsideTheBuffer s f a hinv hd).2
  have herase : Flash.write { f with proto := .wfc .two .erase } (flashOff 0#8 a) 0x30#8 =
      .done { f with buf := f.buf.erase (sectorBase f.bank a) (sectorBase f.bank a + 4096), proto := .idle } [] := by
    rw [Flash.write_sectorErase rfl, Flash.sectorErase_of_le (by rwa [a16Of_flashOff]), a16Of_flashOff]
  exact ⟨_, steps_erase hlive hd hproto hp herase, Memory.len_erase .., Memory.read_erase .flash f.buf _ _⟩

end Sys2Proof.Machine
end
